-- ==== Sys2Proof/Word.lean ====
section
/-! DEFINITION. The command word and the response byte (spec/30_encoding.md R50, R51). -/

namespace Sys2Proof

/-- A command word `cmd[31:0]` (R50): bit 0 is the least significant (R9). -/
abbrev Word := BitVec 32

/-- The response's `rdata[7:0]` and the command word's `DATA` field (R50, R51). -/
abbrev Byte := BitVec 8

end Sys2Proof
end

