-- ==== Sys2Proof/Config.lean ====
section
/-! DEFINITION. The implementation parameters of spec/00_scope.md R7. The spec leaves no value that a command
computes open (spec/93_implementation_defined.md), so there is no opaque constant here. -/

namespace Sys2Proof.Config

/-- `NBITS` (R7): the data cells of a Byte unit, never resized. -/
def nbits : Nat := 8

/-- The cell selector of the byte-parity cell (spec/10_state.md R19, spec/20_memory.md R35). -/
def bpSelector : Nat := 8

/-- The most elements SETBYTE may supply (spec/30_encoding.md R55). -/
def maxElements : Nat := 8

/-- `cfg_pe` when the host supplies none (spec/30_encoding.md R50). -/
def defaultParityEnabled : Bool := false

/-- `cfg_level` when the host supplies none (spec/30_encoding.md R50). -/
def defaultParityLevel : BitVec 2 := 1

end Sys2Proof.Config
end

