-- ==== Sys2Proof/Syntax.lean ====
section
/-! DEFINITION. The abstract command set (spec/30_encoding.md R59), one constructor per row of
spec/opcode_table.json, and the names of the refusals (spec/60_exceptions.md R98). -/

namespace Sys2Proof

/-- The ten commands (R59). Each default is the source's (R52). An index is an unbounded integer, so that the error
for an index outside [0,7] can be stated for negative ones too; a selector is a natural number. -/
inductive Instr where
  /-- GETBYTE: Byte.getByte(overrideParity). -/
  | getByte (ovr : Bool := false)
  /-- SETBIT: Byte.setBit(index, value). -/
  | setBit (idx : Int) (v : Bool)
  /-- GETBIT: Byte.getBit(index, overrideParity). -/
  | getBit (idx : Int) (ovr : Bool := false)
  /-- SETBYTE: Byte.setByte(values, littleEndian). -/
  | setByte (vals : List Bool) (le : Bool := true)
  /-- CHKBYTE: Byte.checkParity(). -/
  | chkByte
  /-- RECALC: Byte.recalculateParity(). -/
  | recalc
  /-- BGET: Bit.get(overrideParity) on cell `c`. -/
  | bget (c : Nat) (ovr : Bool := false)
  /-- BSET: Bit.set(value) on cell `c`. -/
  | bset (c : Nat) (v : Bool)
  /-- BFLIP: Bit.flip(honorParity) on cell `c`. -/
  | bflip (c : Nat) (honor : Bool := true)
  /-- BCHK: Bit.checkParity() on cell `c`. -/
  | bchk (c : Nat)
  deriving DecidableEq, Repr

/-- Why a command is refused (R98). The first four are seen in the word alone (R55, R56), the others depend on the
configuration (R57, R58). -/
inductive Reason where
  /-- OP is none of the ten opcodes (R56). -/
  | illegalOpcode
  /-- A must-be-zero bit is 1 (R55). -/
  | reservedBits
  /-- SETBYTE with more than 8 elements (R55). -/
  | badLength
  /-- SETBYTE with a DATA bit set at a position of N or above (R55). -/
  | strayData
  /-- A Byte command on a Bit unit (R57). -/
  | wrongUnit
  /-- A cell selector outside the unit's space (spec/20_memory.md R35). -/
  | badSelector
  /-- CHKBYTE or RECALC without byteParity; BCHK on a cell without a shadow (R58). -/
  | capabilityAbsent
  deriving DecidableEq, Repr

end Sys2Proof
end

