-- ==== Sys2Proof/WellFormed.lean ====
section
/-! DEFINITION. Which abstract commands have a word (spec/30_encoding.md R62): index or selector in 0..255, at most
8 elements. -/

namespace Sys2Proof

/-- The index fits `IDX` (R51, R52). -/
def Instr.indexFits (idx : Int) : Bool := decide (0 ≤ idx) && decide (idx < 256)

/-- The selector fits `IDX` (R51, R52). -/
def Instr.selectorFits (c : Nat) : Bool := decide (c < 256)

/-- A command that has exactly one word (R62). -/
def Instr.wf : Instr → Bool
  | .getByte _ => true
  | .setBit idx _ => Instr.indexFits idx
  | .getBit idx _ => Instr.indexFits idx
  | .setByte vals _ => decide (vals.length ≤ Config.maxElements)
  | .chkByte => true
  | .recalc => true
  | .bget c _ => Instr.selectorFits c
  | .bset c _ => Instr.selectorFits c
  | .bflip c _ => Instr.selectorFits c
  | .bchk c => Instr.selectorFits c

end Sys2Proof
end

