-- ==== Sys2Proof/Decode.lean ====
section
/-! DEFINITION. The decoder and the encoder of the command word (spec/30_encoding.md R51 to R56, R62). -/

namespace Sys2Proof

/-- The ten opcodes (R53). -/
inductive Op where
  | getByte | setBit | getBit | setByte | chkByte | recalc | bget | bset | bflip | bchk
  deriving DecidableEq, Repr

/-- The value of the OP field (R53). -/
def Op.code : Op → BitVec 4
  | .getByte => 0x1
  | .setBit => 0x2
  | .getBit => 0x3
  | .setByte => 0x4
  | .chkByte => 0x5
  | .recalc => 0x6
  | .bget => 0x8
  | .bset => 0x9
  | .bflip => 0xA
  | .bchk => 0xB

/-- The opcode an OP field names; `none` for the illegal values (R53, R56). -/
def Op.ofCode (code : BitVec 4) : Option Op :=
  match code.toNat with
  | 0x1 => some .getByte
  | 0x2 => some .setBit
  | 0x3 => some .getBit
  | 0x4 => some .setByte
  | 0x5 => some .chkByte
  | 0x6 => some .recalc
  | 0x8 => some .bget
  | 0x9 => some .bset
  | 0xA => some .bflip
  | 0xB => some .bchk
  | _ => none

/-- The mask column of R54. -/
def Op.mask : Op → Word
  | .getByte => 0xFFFFFFEF
  | .setBit => 0xFFFF00DF
  | .getBit => 0xFFFF00EF
  | .setByte => 0xF000FFEF
  | .chkByte => 0xFFFFFFFF
  | .recalc => 0xFFFFFFFF
  | .bget => 0xFFFF00EF
  | .bset => 0xFFFF00DF
  | .bflip => 0xFFFF00EF
  | .bchk => 0xFFFF00FF

/-- The match column of R54. -/
def Op.pattern : Op → Word
  | .getByte => 0x00000001
  | .setBit => 0x00000002
  | .getBit => 0x00000003
  | .setByte => 0x00000004
  | .chkByte => 0x00000005
  | .recalc => 0x00000006
  | .bget => 0x00000008
  | .bset => 0x00000009
  | .bflip => 0x0000000A
  | .bchk => 0x0000000B

/-! ## Fields (R51) -/

/-- `OP`, bits [3:0]. -/
def opField (w : Word) : BitVec 4 := w.extractLsb' 0 4

/-- `F`, bit [4]. -/
def flagField (w : Word) : Bool := w.getLsbD 4

/-- `V`, bit [5]. -/
def valueField (w : Word) : Bool := w.getLsbD 5

/-- `IDX`, bits [15:8]. -/
def idxField (w : Word) : BitVec 8 := w.extractLsb' 8 8

/-- `DATA`, bits [23:16]. -/
def dataField (w : Word) : BitVec 8 := w.extractLsb' 16 8

/-- `N`, bits [27:24]. -/
def lenField (w : Word) : BitVec 4 := w.extractLsb' 24 4

/-- The supplied sequence `[DATA[0], ..., DATA[n-1]]` (R52). -/
def elements (dat : BitVec 8) (n : Nat) : List Bool := (List.range n).map dat.getLsbD

/-- The number whose bit `k` is element `k`. -/
def packNat : List Bool → Nat
  | [] => 0
  | v :: vs => v.toNat + 2 * packNat vs

/-- Element `k` in bit `k` (spec/20_memory.md R37): `DATA` of SETBYTE, and the `rdata` of GETBYTE. -/
def packBits (vs : List Bool) : Byte := BitVec.ofNat 8 (packNat vs)

/-! ## Decoding -/

/-- SETBYTE's own decode-time checks, in the order of R62: `BadLength`, then `StrayData`. -/
def decodeSetByte (dat : BitVec 8) (n : Nat) (le : Bool) : Except Reason Instr :=
  if n > Config.maxElements then .error .badLength
  else if dat >>> n ≠ 0 then .error .strayData
  else .ok (.setByte (elements dat n) le)

/-- The command of a word whose opcode is `op` and whose reserved bits are zero (R62). -/
def decodeOperands (op : Op) (w : Word) : Except Reason Instr :=
  match op with
  | .getByte => .ok (.getByte (flagField w))
  | .setBit => .ok (.setBit (idxField w).toNat (valueField w))
  | .getBit => .ok (.getBit (idxField w).toNat (flagField w))
  | .setByte => decodeSetByte (dataField w) (lenField w).toNat (flagField w)
  | .chkByte => .ok .chkByte
  | .recalc => .ok .recalc
  | .bget => .ok (.bget (idxField w).toNat (flagField w))
  | .bset => .ok (.bset (idxField w).toNat (valueField w))
  | .bflip => .ok (.bflip (idxField w).toNat (flagField w))
  | .bchk => .ok (.bchk (idxField w).toNat)

/-- The decoder, total on any word (R62): a command, or a refusal by its reason. -/
def decode (w : Word) : Except Reason Instr :=
  match Op.ofCode (opField w) with
  | none => .error .illegalOpcode
  | some op => if w &&& op.mask ≠ op.pattern then .error .reservedBits else decodeOperands op w

/-- The instruction the decoder reads from the word `w`, of which the table numbers `nbits` bits. -/
def decodeTableWord (nbits w : Nat) : Option Instr :=
  match decode (BitVec.ofNat 32 (w % 2 ^ nbits)) with
  | .ok instr => some instr
  | .error _ => none

/-! ## Encoding -/

/-- A word from its fields, each at its place in the layout of R51; RSV0 and RSV1 are zero. -/
def assembleWord (op : Op) (f v : Bool) (idx dat : BitVec 8) (n : BitVec 4) : Word :=
  op.code.setWidth 32
    ||| (BitVec.ofBool f).setWidth 32 <<< 4
    ||| (BitVec.ofBool v).setWidth 32 <<< 5
    ||| idx.setWidth 32 <<< 8
    ||| dat.setWidth 32 <<< 16
    ||| n.setWidth 32 <<< 24

/-- The one word of a well-formed command (R54, R62). A command that is not well formed has no word: its fields are
cut to their width here (log entry 8). -/
def encode : Instr → Word
  | .getByte ovr => assembleWord .getByte ovr false 0 0 0
  | .setBit idx v => assembleWord .setBit false v (BitVec.ofInt 8 idx) 0 0
  | .getBit idx ovr => assembleWord .getBit ovr false (BitVec.ofInt 8 idx) 0 0
  | .setByte vals le => assembleWord .setByte le false 0 (packBits vals) (BitVec.ofNat 4 vals.length)
  | .chkByte => assembleWord .chkByte false false 0 0 0
  | .recalc => assembleWord .recalc false false 0 0 0
  | .bget c ovr => assembleWord .bget ovr false (BitVec.ofNat 8 c) 0 0
  | .bset c v => assembleWord .bset false v (BitVec.ofNat 8 c) 0 0
  | .bflip c honor => assembleWord .bflip honor false (BitVec.ofNat 8 c) 0 0
  | .bchk c => assembleWord .bchk false false (BitVec.ofNat 8 c) 0 0

/-- The row of the opcode table an instruction belongs to (R53). -/
def Instr.op : Instr → Op
  | .getByte _ => .getByte
  | .setBit _ _ => .setBit
  | .getBit _ _ => .getBit
  | .setByte _ _ => .setByte
  | .chkByte => .chkByte
  | .recalc => .recalc
  | .bget _ _ => .bget
  | .bset _ _ => .bset
  | .bflip _ _ => .bflip
  | .bchk _ => .bchk

end Sys2Proof
end

