-- ==== Sys2Proof/Machine/Cell.lean ====
section
/-! DEFINITION. A cell (spec/10_state.md R16) and the four cell primitives (spec/40_bit_cell.md R66 to R70). -/

namespace Sys2Proof.Machine

/-- One Bit (R16): a data value and, when the cell's parity is enabled, a shadow. A shadow that does not exist is
absent, not a stored zero. -/
structure Cell where
  /-- `D[c]`, the source's `dataValue`. -/
  data : Bool
  /-- `S[c]`, the source's `parityValue`. -/
  shadow : Option Bool
  deriving DecidableEq, Repr

/-- The two architected errors (spec/60_exceptions.md R94). The index is the host's own argument (R97). -/
inductive CmdError where
  /-- A read-time check found that stored parity no longer matches the data. -/
  | parityMismatch
  /-- A bit index outside [0,7]. -/
  | indexOutOfRange (idx : Int)
  deriving DecidableEq, Repr

/-- `hasS(c)` (spec/10_state.md R20): the shadow exists. -/
def Cell.hasShadow (x : Cell) : Bool := x.shadow.isSome

/-- The shadow, when there is one, equals the data (spec/10_state.md R30, condition 1). -/
def Cell.synced (x : Cell) : Bool :=
  match x.shadow with
  | none => true
  | some sh => x.data == sh

/-- A newly constructed Bit (R28). -/
def Cell.fresh (parityEnabled : Bool) : Cell :=
  { data := false, shadow := if parityEnabled then some false else none }

/-- `CellGet(c, ovr)`, the checked read (R66); the override skips the comparison (R67). -/
def Cell.get (ovr : Bool) (x : Cell) : Except CmdError Bool :=
  match x.shadow with
  | none => .ok x.data
  | some sh => if ovr || x.data == sh then .ok x.data else .error .parityMismatch

/-- `CellSet(c, v)`, the trusted write (R68). -/
def Cell.set (v : Bool) (x : Cell) : Cell := { data := v, shadow := x.shadow.map fun _ => v }

/-- `CellFlip(c, honor)` (R69). -/
def Cell.flip (honor : Bool) (x : Cell) : Cell :=
  { data := !x.data, shadow := if honor then x.shadow.map not else x.shadow }

/-- `CellCheck(c)` (R70), defined only on a cell with a shadow: `none` elsewhere. -/
def Cell.check (x : Cell) : Option Bool := x.shadow.map fun sh => x.data == sh

end Sys2Proof.Machine
end

