-- ==== Sys2Proof/Machine/Block.lean ====
section
/-! DEFINITION. The unit: its configuration, its cells and its reset state (spec/10_state.md R14 to R32,
spec/70_reset_and_hazards.md R114, R115). -/

namespace Sys2Proof.Machine

/-- The two kinds of unit (spec/00_scope.md R3). -/
inductive Kind where
  /-- One storage cell, with an optional shadow. -/
  | bitUnit
  /-- Eight data cells and an optional byte-parity cell. -/
  | byteUnit
  deriving DecidableEq, Repr

/-- The configuration (R14), latched at reset. The field of the other kind is latched too and has no effect. -/
structure Cfg where
  kind : Kind
  /-- Bit unit only: the cell has a shadow. -/
  parityEnabled : Bool
  /-- Byte unit only: 0 none, 1 byte, 2 bit, 3 both. -/
  parityLevel : BitVec 2
  deriving DecidableEq, Repr

/-- The configuration inputs of the reset port (spec/30_encoding.md R50): `none` where the host supplies none. -/
structure ResetInputs where
  cfgKind : Kind
  cfgPe : Option Bool := none
  cfgLevel : Option (BitVec 2) := none
  deriving DecidableEq, Repr

/-- The two enables the mux makes (R15). -/
structure Enables where
  byteParity : Bool
  bitParity : Bool
  deriving DecidableEq, Repr

/-- The unit (R23): its configuration, its data cells by selector (one on a Bit unit, eight on a Byte unit) and the
byte-parity cell where there is one. -/
structure Block where
  cfg : Cfg
  cells : List Cell
  bp : Option Cell
  deriving DecidableEq, Repr

/-- `multi_level_parity_mux` (R15). -/
def mux (level : BitVec 2) : Enables :=
  { byteParity := level.getLsbD 0, bitParity := level.getLsbD 1 }

/-- The unit is a Byte unit with `byteParity`. -/
def Cfg.byteParity (cfg : Cfg) : Bool := cfg.kind == .byteUnit && (mux cfg.parityLevel).byteParity

/-- The unit is a Byte unit with `bitParity`. -/
def Cfg.bitParity (cfg : Cfg) : Bool := cfg.kind == .byteUnit && (mux cfg.parityLevel).bitParity

/-- How many data cells the unit has (R17, R18). -/
def Cfg.cellCount (cfg : Cfg) : Nat :=
  match cfg.kind with
  | .bitUnit => 1
  | .byteUnit => Config.nbits

/-- `hasS` of the data cells (R17, R18, R20). -/
def Cfg.shadowed (cfg : Cfg) : Bool :=
  match cfg.kind with
  | .bitUnit => cfg.parityEnabled
  | .byteUnit => cfg.bitParity

/-- The configuration a reset latches (R14, R115), with the defaults of spec/30_encoding.md R50. -/
def ResetInputs.latch (inp : ResetInputs) : Cfg :=
  { kind := inp.cfgKind
    parityEnabled := inp.cfgPe.getD Config.defaultParityEnabled
    parityLevel := inp.cfgLevel.getD Config.defaultParityLevel }

/-- A level given as an integer, as an abstract host might: outside 0..3 it is refused at construction, never mapped
into range (spec/70_reset_and_hazards.md R115). -/
def levelOfInt (level : Int) : Option (BitVec 2) :=
  if 0 ≤ level ∧ level ≤ 3 then some (BitVec.ofInt 2 level) else none

/-- The byte-parity cell as constructed: allocated without a shadow and flipped once (R19, R29). -/
def freshBp : Cell := (Cell.fresh false).flip true

/-- Construction (R28, R29; spec/70_reset_and_hazards.md R114). -/
def Block.construct (cfg : Cfg) : Block :=
  { cfg := cfg
    cells := List.replicate cfg.cellCount (Cell.fresh cfg.shadowed)
    bp := if cfg.byteParity then some freshBp else none }

/-- The storage is the one the configuration calls for (R17 to R20, R23). -/
def Block.wf (b : Block) : Bool :=
  b.cells.length == b.cfg.cellCount
    && b.cells.all (fun x => x.hasShadow == b.cfg.shadowed)
    && (match b.bp with
        | none => !b.cfg.byteParity
        | some x => b.cfg.byteParity && !x.hasShadow)

end Sys2Proof.Machine
end

