-- ==== Sys2Proof/Machine/State.lean ====
section
/-! DEFINITION. The machine's state (spec/10_state.md; the ports of spec/30_encoding.md R50, R60), its refusals and its
state after reset. -/

namespace Sys2Proof.Machine

/-- The response port (spec/30_encoding.md R60): `status[1:0]` and `rdata[7:0]`. -/
structure Response where
  status : BitVec 2
  rdata : Byte
  deriving DecidableEq, Repr

/-- What the host sends (spec/60_exceptions.md R113): a reset with its inputs, or one command word. -/
inductive HostEvent where
  | reset (inp : ResetInputs)
  | command (w : Word)
  deriving DecidableEq, Repr

/-- No fault: the block has no trap mechanism and nothing stops it (spec/60_exceptions.md R102). Nobody raises one;
that is safe. -/
inductive Fault where
  deriving DecidableEq, Repr

/-- Why a step has no next state. -/
inductive Refusal where
  /-- Raised by an arm of `exec` whose command has no meaning yet. Safe: nothing is claimed of it. No arm is. -/
  | notModelled (mnemonic : String)
  /-- Raised by the ABSTRACT model only (`abstractExec`, `abstractStep`): a refused command has no next state there
  (spec/60_exceptions.md R99). Safe: the model claims nothing of what follows. `exec` and `step`, the word interface,
  answer status 3 instead. -/
  | bySpec (reason : Reason)
  deriving DecidableEq, Repr

/-- The whole state. -/
structure State where
  /-- The block's own state: configuration and cells (spec/10_state.md R14 to R20). -/
  block : Block
  /-- The response port after the last step: the response of the command it ran, or nothing (log entry 4). -/
  response : Option Response
  /-- The refusal mark the spec gives its model (spec/60_exceptions.md R99): the first refusal since the reset. -/
  mark : Option Reason
  /-- The MODEL's own field: what the host sends next on the reset and command ports, oldest first (log entry 1). -/
  host : List HostEvent
  deriving DecidableEq, Repr

/-- The state right after a reset with the inputs `inp` (spec/70_reset_and_hazards.md R114), the host's next
interactions being `rest`. -/
def State.afterReset (inp : ResetInputs) (rest : List HostEvent) : State :=
  { block := Block.construct inp.latch, response := none, mark := none, host := rest }

/-- The machine right after reset, with the default level. The spec gives `cfg_kind` no default: the Byte unit is
the model's choice (log entry 2). -/
def State.reset : State := State.afterReset { cfgKind := .byteUnit } []

end Sys2Proof.Machine
end

