-- ==== Sys2Proof/Machine/Operands.lean ====
section
/-! DEFINITION. Operand forms: the bit index (spec/20_memory.md R34), the cell selector (R35) and SETBYTE's placement
(spec/41_byte_unit.md R88). -/

namespace Sys2Proof.Machine

/-- `0 <= i < 8`: the index selects a data cell (R34). -/
def indexInRange (idx : Int) : Bool := decide (0 ≤ idx) && decide (idx < Config.nbits)

/-- The cell-selector space of the unit (R35). -/
def Block.inSpace (b : Block) (c : Nat) : Bool :=
  match b.cfg.kind with
  | .bitUnit => c == 0
  | .byteUnit => decide (c < Config.nbits) || (c == Config.bpSelector && b.cfg.byteParity)

/-- The cell with selector `c`, where it is present. -/
def Block.cell? (b : Block) (c : Nat) : Option Cell :=
  if c = Config.bpSelector then b.bp else b.cells[c]?

/-- Replace the cell with selector `c` by what `f` makes of it. An absent cell stays absent
(spec/10_state.md R27). -/
def Block.modifyCell (b : Block) (c : Nat) (f : Cell → Cell) : Block :=
  if c = Config.bpSelector then { b with bp := b.bp.map f } else { b with cells := b.cells.modify c f }

/-- The cell a direct command acts on (R35): `none` is a bad selector. -/
def Block.selected (b : Block) (c : Nat) : Option Cell := if b.inSpace c then b.cell? c else none

/-- `Place(values, le)[k]` (spec/41_byte_unit.md R88). -/
def placeAt (vals : List Bool) (le : Bool) (k : Nat) : Bool :=
  if k ≥ vals.length then false
  else if le then vals.getD (vals.length - 1 - k) false
  else vals.getD k false

/-- `Place(values, le)` (spec/41_byte_unit.md R88): the eight index positions. -/
def place (vals : List Bool) (le : Bool) : List Bool := (List.range Config.nbits).map (placeAt vals le)

end Sys2Proof.Machine
end

