-- ==== Sys2Proof/Machine/Flags.lean ====
section
/-! DEFINITION. The parity computations. The block has no flags (spec/10_state.md R25); what it computes from the data
is byte parity: `byte_parity_aggregator`, and the byte tier of `parity_generator` and `parity_checker`
(spec/41_byte_unit.md R77 to R81), and consistency (spec/10_state.md R30). -/

namespace Sys2Proof.Machine

/-- The number of `true` values (spec/00_scope.md R10). -/
def popcount : List Bool → Nat
  | [] => 0
  | v :: vs => v.toNat + popcount vs

/-- `isEven(n)` (spec/00_scope.md R10). -/
def isEven (n : Nat) : Bool := n % 2 == 0

/-- `D[0..]`, the raw data in index order. -/
def Block.rawData (b : Block) : List Bool := b.cells.map Cell.data

/-- `PopRaw()` (R77). -/
def Block.popRaw (b : Block) : Nat := popcount b.rawData

/-- Read cells in index order through the bit checker; the first mismatch ends the read (R78, R84). -/
def readCells (ovr : Bool) : List Cell → Except CmdError (List Bool)
  | [] => .ok []
  | x :: xs =>
    match x.get ovr with
    | .error e => .error e
    | .ok v =>
      match readCells ovr xs with
      | .error e => .error e
      | .ok vs => .ok (v :: vs)

/-- `PopChecked()` (R78). -/
def Block.popChecked (b : Block) : Except CmdError Nat :=
  match readCells false b.cells with
  | .error e => .error e
  | .ok vs => .ok (popcount vs)

/-- `GenBP(n)` (R79): odd gives false, even gives true. -/
def genBP (n : Nat) : Bool := isEven n

/-- `BP`, where the byte-parity cell exists (spec/00_scope.md R10). -/
def Block.bpData (b : Block) : Option Bool := b.bp.map Cell.data

/-- `ByteRecalc()` (R80): a trusted write of the byte-parity cell from the raw data. -/
def Block.byteRecalc (b : Block) : Block :=
  b.modifyCell Config.bpSelector (Cell.set (genBP b.popRaw))

/-- `ByteCheck()` (R81). -/
def Block.byteCheck (b : Block) : Except CmdError Bool :=
  match b.popChecked with
  | .error e => .error e
  | .ok n => .ok (b.bpData == some (genBP n))

/-- The recompute the Byte mutators end with: only when `byteParity` (R86, R89). -/
def Block.recalcIfEnabled (b : Block) : Block := if b.cfg.byteParity then b.byteRecalc else b

/-- `ByteCheck` where the read is guarded by it; `true` where no check is made (R84). -/
def Block.byteGuard (b : Block) (ovr : Bool) : Except CmdError Bool :=
  if b.cfg.byteParity && !ovr then b.byteCheck else .ok true

/-- Consistent (spec/10_state.md R30). -/
def Block.consistent (b : Block) : Bool :=
  b.cells.all Cell.synced && b.bp.all Cell.synced
    && (!b.cfg.byteParity || b.bpData == some (isEven b.popRaw))

end Sys2Proof.Machine
end

