-- ==== Sys2Proof/Machine/Ops.lean ====
section
/-! DEFINITION. How a command ends (spec/00_scope.md R11) and what the word interface then shows
(spec/30_encoding.md R60, R61; spec/60_exceptions.md R94, R97, R99, R102); what the host's ports do between commands. -/

namespace Sys2Proof.Machine

/-- The result of a command that completes (R11, R61). -/
inductive Result where
  /-- SETBIT, SETBYTE, RECALC, BSET, BFLIP: no result. -/
  | none
  /-- GETBIT, BGET: the bit; CHKBYTE, BCHK: parity correct. -/
  | bit (v : Bool)
  /-- GETBYTE: the eight bits in index order. -/
  | byte (vs : List Bool)
  deriving DecidableEq, Repr

/-- How a command ends (R11). -/
inductive CmdOut where
  /-- `return r`, with the block the command leaves. -/
  | ret (r : Result) (b : Block)
  /-- `raise e`: an error, with nothing written. -/
  | raise (e : CmdError)
  /-- `refuse r`: not admitted. -/
  | refuse (r : Reason)
  deriving DecidableEq, Repr

/-- The names of the status codes (spec/30_encoding.md R60). -/
inductive Status where
  | ok | parityMismatch | indexOutOfRange | refused
  deriving DecidableEq, Repr

/-- `status[1:0]` (spec/30_encoding.md R60). -/
def Status.code : Status → BitVec 2
  | .ok => 0
  | .parityMismatch => 1
  | .indexOutOfRange => 2
  | .refused => 3

/-- The status that reports an error (spec/60_exceptions.md R94). -/
def CmdError.status : CmdError → Status
  | .parityMismatch => .parityMismatch
  | .indexOutOfRange _ => .indexOutOfRange

/-- `zext_8` of a bit (spec/30_encoding.md R61). -/
def bitRdata (v : Bool) : Byte := if v then 1 else 0

/-- `rdata` of a result (spec/30_encoding.md R61; the packing of spec/20_memory.md R37). -/
def Result.rdata : Result → Byte
  | .none => 0
  | .bit v => bitRdata v
  | .byte vs => packBits vs

/-- A response that reports no success carries `rdata = 0x00` (spec/30_encoding.md R60). -/
def Status.bare (st : Status) : Response := { status := st.code, rdata := 0 }

/-- A response with status OK (spec/30_encoding.md R60). -/
def okResponse (rd : Byte) : Response := { status := Status.ok.code, rdata := rd }

/-- A command completes: the block it leaves, and status OK with its result. -/
def State.succeed (s : State) (r : Result) (b : Block) : State :=
  { s with block := b, response := some (okResponse r.rdata) }

/-- TAKING AN ERROR (spec/60_exceptions.md R97, R102): the response carries the status code and `rdata = 0x00`;
nothing is saved, no mode changes, no state of the block is written. There is nothing to return from (R103). -/
def State.raise (s : State) (e : CmdError) : State :=
  { s with response := some e.status.bare }

/-- A refusal at the word interface (spec/60_exceptions.md R99): status Refused, `rdata = 0x00`, the block unchanged;
the model's mark is set and stays (log entry 5). -/
def State.refuse (s : State) (r : Reason) : State :=
  { s with response := some Status.refused.bare, mark := some (s.mark.getD r) }

/-- The response and the state a command's outcome leaves at the word interface. -/
def State.complete (s : State) : CmdOut → State
  | .ret r b => s.succeed r b
  | .raise e => s.raise e
  | .refuse r => s.refuse r

/-- A command that must be sent to a Byte unit (spec/30_encoding.md R57). -/
def Block.requireByte (b : Block) (out : CmdOut) : CmdOut :=
  if b.cfg.kind = .byteUnit then out else .refuse .wrongUnit

/-- A command that needs `byteParity` (spec/30_encoding.md R58). -/
def Block.requireByteParity (b : Block) (out : CmdOut) : CmdOut :=
  if b.cfg.byteParity then out else .refuse .capabilityAbsent

/-- A command with a bit index, checked before any read or write (spec/20_memory.md R34). -/
def requireIndex (idx : Int) (out : CmdOut) : CmdOut :=
  if indexInRange idx then out else .raise (.indexOutOfRange idx)

/-- A checked read as the end of a read command, which leaves the block as it is. -/
def Block.returnBit (b : Block) : Except CmdError Bool → CmdOut
  | .error e => .raise e
  | .ok v => .ret (.bit v) b

/-- `fetch`: the host's command has been taken off its port. -/
def State.taken (s : State) (rest : List HostEvent) : State := { s with host := rest }

/-- The host sends nothing: the block stays as it is (spec/60_exceptions.md R113) and the response port shows no
response (log entry 4). -/
def State.idle (s : State) : State := { s with response := none }

end Sys2Proof.Machine
end

