-- ==== Sys2Proof/Machine/BitCommands.lean ====
section
/-! DEFINITION. The direct cell commands BGET, BSET, BFLIP, BCHK (spec/40_bit_cell.md R71 to R75). They act on one
cell and never recompute `BP` (R71). -/

namespace Sys2Proof.Machine

/-- BGET (R72). -/
def cmdBget (c : Nat) (ovr : Bool) (b : Block) : CmdOut :=
  match b.selected c with
  | none => .refuse .badSelector
  | some x => b.returnBit (x.get ovr)

/-- BSET (R73). -/
def cmdBset (c : Nat) (v : Bool) (b : Block) : CmdOut :=
  match b.selected c with
  | none => .refuse .badSelector
  | some _ => .ret .none (b.modifyCell c (Cell.set v))

/-- BFLIP (R74). -/
def cmdBflip (c : Nat) (honor : Bool) (b : Block) : CmdOut :=
  match b.selected c with
  | none => .refuse .badSelector
  | some _ => .ret .none (b.modifyCell c (Cell.flip honor))

/-- BCHK (R75). -/
def cmdBchk (c : Nat) (b : Block) : CmdOut :=
  match b.selected c with
  | none => .refuse .badSelector
  | some x =>
    match x.check with
    | none => .refuse .capabilityAbsent
    | some ok => .ret (.bit ok) b

/-- BGET at the word interface (R72). -/
def execBget (c : Nat) (ovr : Bool) (s : State) : Host.Outcome State Fault Refusal :=
  .next (s.complete (cmdBget c ovr s.block))

/-- BSET at the word interface (R73). -/
def execBset (c : Nat) (v : Bool) (s : State) : Host.Outcome State Fault Refusal :=
  .next (s.complete (cmdBset c v s.block))

/-- BFLIP at the word interface (R74). -/
def execBflip (c : Nat) (honor : Bool) (s : State) : Host.Outcome State Fault Refusal :=
  .next (s.complete (cmdBflip c honor s.block))

/-- BCHK at the word interface (R75). -/
def execBchk (c : Nat) (s : State) : Host.Outcome State Fault Refusal :=
  .next (s.complete (cmdBchk c s.block))

end Sys2Proof.Machine
end

