-- ==== Sys2Proof/Machine/ByteCommands.lean ====
section
/-! DEFINITION. The Byte unit's commands GETBYTE, SETBIT, GETBIT, SETBYTE, CHKBYTE, RECALC
(spec/41_byte_unit.md R82 to R89). -/

namespace Sys2Proof.Machine

/-- Every data cell read in index order, as the end of GETBYTE (R84). -/
def Block.returnByte (b : Block) (ovr : Bool) : CmdOut :=
  match readCells ovr b.cells with
  | .error e => .raise e
  | .ok vs => .ret (.byte vs) b

/-- GETBYTE (R84): the byte check unless overridden, then the eight checked reads. -/
def cmdGetByte (ovr : Bool) (b : Block) : CmdOut :=
  b.requireByte <|
    match b.byteGuard ovr with
    | .error e => .raise e
    | .ok false => .raise .parityMismatch
    | .ok true => b.returnByte ovr

/-- SETBIT (R86): a trusted write, then the recompute. -/
def cmdSetBit (idx : Int) (v : Bool) (b : Block) : CmdOut :=
  b.requireByte <| requireIndex idx <|
    .ret .none (b.modifyCell idx.toNat (Cell.set v)).recalcIfEnabled

/-- GETBIT (R87): one checked read; it never checks `BP`. -/
def cmdGetBit (idx : Int) (ovr : Bool) (b : Block) : CmdOut :=
  b.requireByte <| requireIndex idx <|
    match b.cell? idx.toNat with
    | none => .raise (.indexOutOfRange idx)
    | some x => b.returnBit (x.get ovr)

/-- Every data cell written by a trusted write, cell `k` with element `k` (R89). -/
def Block.setAll (b : Block) (vals : List Bool) : Block :=
  { b with cells := List.zipWith Cell.set vals b.cells }

/-- SETBYTE (R89), the length checked first (spec/60_exceptions.md R100). -/
def cmdSetByte (vals : List Bool) (le : Bool) (b : Block) : CmdOut :=
  if vals.length > Config.maxElements then .refuse .badLength
  else b.requireByte <| .ret .none (b.setAll (place vals le)).recalcIfEnabled

/-- CHKBYTE (R82). -/
def cmdChkByte (b : Block) : CmdOut :=
  b.requireByte <| b.requireByteParity <| b.returnBit b.byteCheck

/-- RECALC (R83). -/
def cmdRecalc (b : Block) : CmdOut :=
  b.requireByte <| b.requireByteParity <| .ret .none b.byteRecalc

/-- GETBYTE at the word interface (R84). -/
def execGetByte (ovr : Bool) (s : State) : Host.Outcome State Fault Refusal :=
  .next (s.complete (cmdGetByte ovr s.block))

/-- SETBIT at the word interface (R86). -/
def execSetBit (idx : Int) (v : Bool) (s : State) : Host.Outcome State Fault Refusal :=
  .next (s.complete (cmdSetBit idx v s.block))

/-- GETBIT at the word interface (R87). -/
def execGetBit (idx : Int) (ovr : Bool) (s : State) : Host.Outcome State Fault Refusal :=
  .next (s.complete (cmdGetBit idx ovr s.block))

/-- SETBYTE at the word interface (R89). -/
def execSetByte (vals : List Bool) (le : Bool) (s : State) : Host.Outcome State Fault Refusal :=
  .next (s.complete (cmdSetByte vals le s.block))

/-- CHKBYTE at the word interface (R82). -/
def execChkByte (s : State) : Host.Outcome State Fault Refusal :=
  .next (s.complete (cmdChkByte s.block))

/-- RECALC at the word interface (R83). -/
def execRecalc (s : State) : Host.Outcome State Fault Refusal :=
  .next (s.complete (cmdRecalc s.block))

end Sys2Proof.Machine
end

