-- ==== Sys2Proof/Machine/Dispatch.lean ====
section
/-! DEFINITION. One arm per command: the meaning of each at the word interface. -/

namespace Sys2Proof.Machine

/-- What a command does at the word interface (spec/30_encoding.md R60): a next state with its response. -/
def exec (i : Instr) (s : State) : Host.Outcome State Fault Refusal :=
  match i with
  | .getByte ovr => Sys2Proof.Machine.execGetByte ovr s
  | .setBit idx v => Sys2Proof.Machine.execSetBit idx v s
  | .getBit idx ovr => Sys2Proof.Machine.execGetBit idx ovr s
  | .setByte vals le => Sys2Proof.Machine.execSetByte vals le s
  | .chkByte => Sys2Proof.Machine.execChkByte s
  | .recalc => Sys2Proof.Machine.execRecalc s
  | .bget c ovr => Sys2Proof.Machine.execBget c ovr s
  | .bset c v => Sys2Proof.Machine.execBset c v s
  | .bflip c honor => Sys2Proof.Machine.execBflip c honor s
  | .bchk c => Sys2Proof.Machine.execBchk c s

end Sys2Proof.Machine
end

