-- ==== Sys2Proof/Machine/Step.lean ====
section
/-! DEFINITION. One step: the host's next interaction (spec/20_memory.md R44, spec/60_exceptions.md R113). -/

namespace Sys2Proof.Machine

/-- One step. A reset rebuilds everything (spec/70_reset_and_hazards.md R116). A command word is decoded and run, or
refused by its decode-time reason (spec/30_encoding.md R62). With nothing sent, the block stays as it is. -/
def step (s : State) : Host.Outcome State Fault Refusal :=
  match s.host with
  | [] => .next s.idle
  | .reset inp :: rest => .next (State.afterReset inp rest)
  | .command w :: rest =>
    match decode w with
    | .error r => .next ((s.taken rest).refuse r)
    | .ok instr => exec instr (s.taken rest)

/-- The word `w`, of which the table numbers `nbits` bits, as the very next thing the host sends (log entry 3). -/
def State.withFetchWord (s : State) (nbits w : Nat) : State :=
  { s with host := .command (BitVec.ofNat 32 (w % 2 ^ nbits)) :: s.host }

end Sys2Proof.Machine
end

