-- ==== Sys2Proof/Machine/Abstract.lean ====
section
/-! DEFINITION. The abstract model of spec/60_exceptions.md R99 and spec/00_scope.md R11, where a refused command has
no next state, beside the word interface (`exec`, `step`), where it answers status 3; and runs
(spec/70_reset_and_hazards.md R126). -/

namespace Sys2Proof.Machine

/-- How a command ends on a block (spec/00_scope.md R11), before the response port makes it a status and 8 bits. Here
`IndexOutOfRange(i)` carries the host's index (spec/60_exceptions.md R97). -/
def outcome (instr : Instr) (b : Block) : CmdOut :=
  match instr with
  | .getByte ovr => cmdGetByte ovr b
  | .setBit idx v => cmdSetBit idx v b
  | .getBit idx ovr => cmdGetBit idx ovr b
  | .setByte vals le => cmdSetByte vals le b
  | .chkByte => cmdChkByte b
  | .recalc => cmdRecalc b
  | .bget c ovr => cmdBget c ovr b
  | .bset c v => cmdBset c v b
  | .bflip c honor => cmdBflip c honor b
  | .bchk c => cmdBchk c b

/-- In the abstract model a run that hit a refusal has ended, and keeps its mark (spec/60_exceptions.md R99). -/
def State.unlessMarked (s : State) (o : Host.Outcome State Fault Refusal) : Host.Outcome State Fault Refusal :=
  match s.mark with
  | none => o
  | some r => .refused (.bySpec r)

/-- A command in the abstract model: a refusal gives no next state (spec/60_exceptions.md R99). -/
def abstractExec (instr : Instr) (s : State) : Host.Outcome State Fault Refusal :=
  s.unlessMarked <|
    match outcome instr s.block with
    | .refuse r => .refused (.bySpec r)
    | o => .next (s.complete o)

/-- One step of the abstract model. A reset begins a new run, whatever the mark. -/
def abstractStep (s : State) : Host.Outcome State Fault Refusal :=
  match s.host with
  | [] => s.unlessMarked (.next s.idle)
  | .reset inp :: rest => .next (State.afterReset inp rest)
  | .command w :: rest =>
    s.unlessMarked <|
      match decode w with
      | .error r => .refused (.bySpec r)
      | .ok instr => abstractExec instr (s.taken rest)

/-- What may be observed of a run (spec/70_reset_and_hazards.md R126): the responses in order and the final cells; and,
where the run ended in the refused outcome, why. The refused command answers no response here, its place is taken by the
refusal (log entry 14), and the cells are those it found. -/
structure RunRecord where
  responses : List Response
  final : Block
  refusal : Option Refusal
  deriving DecidableEq, Repr

/-- The record of a run whose first command answered `resp`. -/
def RunRecord.after (resp : Option Response) (record : RunRecord) : RunRecord :=
  { record with responses := resp.toList ++ record.responses }

/-- Commands one after another, each seeing what the one before left (spec/20_memory.md R44). The run ends after the
last command's response, or at the first refusal (spec/70_reset_and_hazards.md R126). -/
def recordCommands : List (State → Host.Outcome State Fault Refusal) → State → RunRecord
  | [], s => { responses := [], final := s.block, refusal := none }
  | command :: rest, s =>
    match command s with
    | .next t => (recordCommands rest t).after t.response
    | .fault f => nomatch f
    | .refused r => { responses := [], final := s.block, refusal := some r }

/-- The host sends one word (spec/30_encoding.md R50). -/
def sendWord (w : Word) (s : State) : Host.Outcome State Fault Refusal :=
  abstractStep { s with host := [.command w] }

/-- A run (spec/70_reset_and_hazards.md R126): a reset, then command words, ending at the first refusal. -/
def runOfWords (inp : ResetInputs) (ws : List Word) : RunRecord :=
  recordCommands (ws.map sendWord) (State.afterReset inp [])

/-- A run of abstract commands (R126, spec/30_encoding.md R59), among them those that have no word. -/
def runOfCommands (inp : ResetInputs) (cmds : List Instr) : RunRecord :=
  recordCommands (cmds.map abstractExec) (State.afterReset inp [])

/-- The state abstract commands lead to from `s`, or the first refusal: the part of a run that comes after `s`. -/
def abstractRun : List Instr → State → Host.Outcome State Fault Refusal
  | [], s => .next s
  | instr :: rest, s =>
    match abstractExec instr s with
    | .next t => abstractRun rest t
    | .fault f => .fault f
    | .refused r => .refused r

/-- The word interface under a host that goes on sending after a refusal: every response, status 3 among them, and the
block at the end (spec/60_exceptions.md R99, R103). This is not a run of R126, which ends at a refusal: that is
`runOfWords`. -/
def observe : List Word → State → List Response × Block
  | [], s => ([], s.block)
  | w :: ws, s =>
    match step { s with host := [.command w] } with
    | .next t => (t.response.toList ++ (observe ws t).1, (observe ws t).2)
    | .fault _ => ([], s.block)
    | .refused _ => ([], s.block)

/-- A reset, then words, whether or not one is refused. -/
def observeRun (inp : ResetInputs) (ws : List Word) : List Response × Block :=
  observe ws (State.afterReset inp [])

end Sys2Proof.Machine
end

