-- ==== Sys2Proof/Machine/Assembler.lean ====
section
/-! DEFINITION. The assembler syntax and the pseudo-commands (spec/30_encoding.md R64, R65). How a line splits into
tokens is log entry 9. -/

namespace Sys2Proof.Machine

/-- The first words of R64's lines, then those of R65's pseudo-commands. -/
inductive Mnemonic where
  | getbyte | getbyteOvr | setbit | getbit | getbitOvr | setbyte | setbyteBe | chkbyte | recalc
  | bget | bgetOvr | bset | bflip | bflipRaw | bchk
  | clrbyte | inject | repair
  deriving DecidableEq, Repr

/-- A token of a line. -/
inductive Tok where
  | word (cs : List Char)
  | comma
  | lbrace
  | rbrace
  deriving DecidableEq, Repr

/-- How each is written (R64, R65). -/
def Mnemonic.text : Mnemonic → List Char
  | .getbyte => "getbyte".toList
  | .getbyteOvr => "getbyte.ovr".toList
  | .setbit => "setbit".toList
  | .getbit => "getbit".toList
  | .getbitOvr => "getbit.ovr".toList
  | .setbyte => "setbyte".toList
  | .setbyteBe => "setbyte.be".toList
  | .chkbyte => "chkbyte".toList
  | .recalc => "recalc".toList
  | .bget => "bget".toList
  | .bgetOvr => "bget.ovr".toList
  | .bset => "bset".toList
  | .bflip => "bflip".toList
  | .bflipRaw => "bflip.raw".toList
  | .bchk => "bchk".toList
  | .clrbyte => "clrbyte".toList
  | .inject => "inject".toList
  | .repair => "repair".toList

/-- All of them. -/
def Mnemonic.all : List Mnemonic :=
  [.getbyte, .getbyteOvr, .setbit, .getbit, .getbitOvr, .setbyte, .setbyteBe, .chkbyte, .recalc,
    .bget, .bgetOvr, .bset, .bflip, .bflipRaw, .bchk, .clrbyte, .inject, .repair]

/-- The mnemonic written `cs`. -/
def Mnemonic.ofText (cs : List Char) : Option Mnemonic := Mnemonic.all.find? fun m => m.text == cs

/-- The word token of the characters read so far, last first; none of no characters. -/
def flushWord : List Char → List Tok
  | [] => []
  | acc => [.word acc.reverse]

/-- The tokens of a line; `acc` holds the characters of the word being read, last first. The braces of R64 are the
characters 123 and 125. -/
def tokenize : List Char → List Char → List Tok
  | [], acc => flushWord acc
  | ch :: cs, acc =>
    if ch = ' ' ∨ ch = '\t' then flushWord acc ++ tokenize cs []
    else if ch = ',' then flushWord acc ++ .comma :: tokenize cs []
    else if ch.toNat = 123 then flushWord acc ++ .lbrace :: tokenize cs []
    else if ch.toNat = 125 then flushWord acc ++ .rbrace :: tokenize cs []
    else tokenize cs (ch :: acc)

/-- The value of a hexadecimal digit. -/
def digitValue (ch : Char) : Option Nat :=
  if 48 ≤ ch.toNat ∧ ch.toNat ≤ 57 then some (ch.toNat - 48)
  else if 97 ≤ ch.toNat ∧ ch.toNat ≤ 102 then some (ch.toNat - 87)
  else if 65 ≤ ch.toNat ∧ ch.toNat ≤ 70 then some (ch.toNat - 55)
  else none

/-- Digits in `base`, most significant first, after the digits that make `acc`. -/
def parseDigits (base : Nat) : List Char → Nat → Option Nat
  | [], acc => some acc
  | ch :: cs, acc =>
    match digitValue ch with
    | none => none
    | some d => if d < base then parseDigits base cs (base * acc + d) else none

/-- A number, decimal or `0x` hex (R64). -/
def parseNumber : List Char → Option Nat
  | [] => none
  | '0' :: 'x' :: ch :: cs => parseDigits 16 (ch :: cs) 0
  | cs => parseDigits 10 cs 0

/-- A Boolean, `0`/`1` or `false`/`true` (R64). -/
def parseBool (cs : List Char) : Option Bool :=
  if cs = "0".toList ∨ cs = "false".toList then some false
  else if cs = "1".toList ∨ cs = "true".toList then some true
  else none

/-- The rest of a SETBYTE sequence, after an element. -/
def parseMore : List Tok → Option (List Bool)
  | [.rbrace] => some []
  | .comma :: .word cs :: toks =>
    match parseBool cs, parseMore toks with
    | some v, some vs => some (v :: vs)
    | _, _ => none
  | _ => none

/-- The sequence of SETBYTE in braces, element 0 first (R64). -/
def parseSequence : List Tok → Option (List Bool)
  | [.lbrace, .rbrace] => some []
  | .lbrace :: .word cs :: toks =>
    match parseBool cs, parseMore toks with
    | some v, some vs => some (v :: vs)
    | _, _ => none
  | _ => none

/-- A lone number operand. -/
def parseOne : List Tok → Option Nat
  | [.word cs] => parseNumber cs
  | _ => none

/-- A number, a comma and a Boolean. -/
def parseTwo : List Tok → Option (Nat × Bool)
  | [.word cs, .comma, .word ds] =>
    match parseNumber cs, parseBool ds with
    | some n, some v => some (n, v)
    | _, _ => none
  | _ => none

/-- No operand. -/
def parseNone (instr : Instr) (toks : List Tok) : Option Instr := if toks.isEmpty then some instr else none

/-- The command of a line (R64); a pseudo-command is its one expansion (R65). -/
def parseOperands (m : Mnemonic) (toks : List Tok) : Option Instr :=
  match m with
  | .getbyte => parseNone (.getByte false) toks
  | .getbyteOvr => parseNone (.getByte true) toks
  | .setbit => (parseTwo toks).map fun p => .setBit p.1 p.2
  | .getbit => (parseOne toks).map fun n => .getBit n false
  | .getbitOvr => (parseOne toks).map fun n => .getBit n true
  | .setbyte => (parseSequence toks).map fun vs => .setByte vs true
  | .setbyteBe => (parseSequence toks).map fun vs => .setByte vs false
  | .chkbyte => parseNone .chkByte toks
  | .recalc => parseNone .recalc toks
  | .bget => (parseOne toks).map fun n => .bget n false
  | .bgetOvr => (parseOne toks).map fun n => .bget n true
  | .bset => (parseTwo toks).map fun p => .bset p.1 p.2
  | .bflip => (parseOne toks).map fun n => .bflip n true
  | .bflipRaw => (parseOne toks).map fun n => .bflip n false
  | .bchk => (parseOne toks).map .bchk
  | .clrbyte => parseNone (.setByte [] true) toks
  | .inject => (parseOne toks).map fun n => .bflip n false
  | .repair => (parseTwo toks).map fun p => .setBit p.1 p.2

/-- The abstract command a line stands for (R64). -/
def parseLine (line : List Char) : Option Instr :=
  match tokenize line [] with
  | .word cs :: toks => (Mnemonic.ofText cs).bind fun m => parseOperands m toks
  | _ => none

/-- The word a line assembles to (R64); none for a line that is no command, or whose command has no word. -/
def assembleLine (line : List Char) : Option Word :=
  (parseLine line).bind fun instr => if instr.wf then some (encode instr) else none

/-! ## Writing a command as a line (R64) -/

/-- A number in decimal. -/
def numberText (n : Nat) : List Char := Nat.toDigits 10 n

/-- A Boolean as `0` or `1`. -/
def boolText (v : Bool) : List Char := if v then ['1'] else ['0']

/-- A number, a comma and a Boolean. -/
def pairText (n : Nat) (v : Bool) : List Char := ' ' :: numberText n ++ ',' :: ' ' :: boolText v

/-- The elements of a sequence, separated by commas. -/
def elementsText : List Bool → List Char
  | [] => []
  | [v] => boolText v
  | v :: vs => boolText v ++ ',' :: elementsText vs

/-- The sequence of SETBYTE in braces. -/
def sequenceText (vs : List Bool) : List Char :=
  ' ' :: Char.ofNat 123 :: elementsText vs ++ [Char.ofNat 125]

/-- The line of a well-formed command (R64). -/
def writeLine : Instr → List Char
  | .getByte ovr => if ovr then Mnemonic.getbyteOvr.text else Mnemonic.getbyte.text
  | .setBit idx v => Mnemonic.setbit.text ++ pairText idx.toNat v
  | .getBit idx ovr =>
    (if ovr then Mnemonic.getbitOvr.text else Mnemonic.getbit.text) ++ ' ' :: numberText idx.toNat
  | .setByte vals le => (if le then Mnemonic.setbyte.text else Mnemonic.setbyteBe.text) ++ sequenceText vals
  | .chkByte => Mnemonic.chkbyte.text
  | .recalc => Mnemonic.recalc.text
  | .bget c ovr => (if ovr then Mnemonic.bgetOvr.text else Mnemonic.bget.text) ++ ' ' :: numberText c
  | .bset c v => Mnemonic.bset.text ++ pairText c v
  | .bflip c honor => (if honor then Mnemonic.bflip.text else Mnemonic.bflipRaw.text) ++ ' ' :: numberText c
  | .bchk c => Mnemonic.bchk.text ++ ' ' :: numberText c

end Sys2Proof.Machine
end

