-- ==== Sys2Proof/Safety.lean ====
section
/-! DEFINITION. What counts as a safe run, in the terms the claims use. -/

namespace Sys2Proof.Machine

/-- The command is sent to a Byte unit only (spec/30_encoding.md R57). -/
def byteOnly : Instr → Bool
  | .getByte _ => true
  | .setBit _ _ => true
  | .getBit _ _ => true
  | .setByte _ _ => true
  | .chkByte => true
  | .recalc => true
  | .bget _ _ => false
  | .bset _ _ => false
  | .bflip _ _ => false
  | .bchk _ => false

/-- The command writes no state (spec/20_memory.md R43). -/
def readOnly : Instr → Bool
  | .getByte _ => true
  | .setBit _ _ => false
  | .getBit _ _ => true
  | .setByte _ _ => false
  | .chkByte => true
  | .recalc => false
  | .bget _ _ => true
  | .bset _ _ => false
  | .bflip _ _ => false
  | .bchk _ => true

/-- `D[c]`, where the cell is present (spec/00_scope.md R10). -/
def Block.dataAt (b : Block) (c : Nat) : Option Bool := (b.cell? c).map Cell.data

/-- How many of `D[0..7]` and `BP` differ between two blocks (spec/41_byte_unit.md R93). -/
def changedBits (b b' : Block) : Nat := (List.range 9).countP fun c => b.dataAt c != b'.dataAt c

/-- The bits of the word that the table of spec/30_encoding.md R54 marks 0 for the opcode, from its field columns and
the layout of R51 (not from its masks). -/
def mustBeZero (op : Op) (k : Nat) : Bool :=
  let flag := k == 4
  let value := k == 5
  let idx := decide (8 ≤ k) && decide (k < 16)
  let sequence := decide (16 ≤ k) && decide (k < 28)
  let used := match op with
    | .getByte => flag
    | .setBit => value || idx
    | .getBit => flag || idx
    | .setByte => flag || sequence
    | .chkByte => false
    | .recalc => false
    | .bget => flag || idx
    | .bset => value || idx
    | .bflip => flag || idx
    | .bchk => idx
  decide (4 ≤ k) && decide (k < 32) && !used

/-- The host sends commands only, no reset. -/
def commandsOnly (events : List HostEvent) : Bool :=
  events.all fun e => match e with
    | .command _ => true
    | .reset _ => false

/-- The abstract model as a machine, so that its runs can be set beside the word interface's. -/
def abstractCore : Host.Core :=
  { State := State
    Fault := Fault
    Refusal := Refusal
    step := abstractStep
    reset := State.reset }

/-- The storage is the one the configuration calls for: what every reachable state has. -/
abbrev State.Inv (s : State) : Prop := s.block.wf = true

/-- No command was refused since the reset: the premise of a claim about a run (spec/60_exceptions.md R99). -/
abbrev State.Unrefused (s : State) : Prop := s.mark = none

/-- A Byte unit in a state the specification calls consistent (spec/10_state.md R30). -/
abbrev Block.Sound (b : Block) : Prop := b.wf = true ∧ b.cfg.kind = .byteUnit ∧ b.consistent = true

end Sys2Proof.Machine
end

