-- ==== Sys2Proof/Certificates/Slice0/Obligations.lean ====
section
/-! DEFINITION. The statements for the provers. -/

open Sys2Proof Sys2Proof.Machine

/-! ## The command word -/

/-- R62: a command that has a word is read back from it, whatever its operands. -/
def Obligations.DecodeOfEncode : Prop :=
  ∀ instr : Instr, instr.wf = true → decode (encode instr) = .ok instr

/-- R62: a word that decodes is the only word of its command. -/
def Obligations.EncodeOfDecode : Prop :=
  ∀ (w : Word) (instr : Instr), decode w = .ok instr → instr.wf = true ∧ encode instr = w

/-- R64, the words of section 95: one word of each command, and what it stands for. -/
def Obligations.SpecWordsDecode : Prop :=
  decode 0x00000011 = .ok (.getByte true) ∧ decode 0x00000722 = .ok (.setBit 7 true) ∧
    decode 0x0000C813 = .ok (.getBit 200 true) ∧ decode 0x03030014 = .ok (.setByte [true, true, false] true) ∧
    decode 0x00000005 = .ok .chkByte ∧ decode 0x00000006 = .ok .recalc ∧ decode 0x00000808 = .ok (.bget 8 false) ∧
    decode 0x00000429 = .ok (.bset 4 true) ∧ decode 0x0000020A = .ok (.bflip 2 false) ∧
    decode 0x0000080B = .ok (.bchk 8)

/-- R56: exactly the words with one of the six unused opcodes are refused as IllegalOpcode; every other word is one of
the ten commands or refused for another reason. -/
def Obligations.IllegalOpcodeWords : Prop :=
  ∀ w : Word,
    (decode w = .error .illegalOpcode ↔ (opField w).toNat ∈ [0x0, 0x7, 0xC, 0xD, 0xE, 0xF]) ∧
      ((∃ instr, decode w = .ok instr) ∨ ∃ r, decode w = .error r)

/-- R55: with a legal opcode, a word is refused as ReservedBits exactly when a bit that R54 marks 0 is 1. -/
def Obligations.ReservedBitsWords : Prop :=
  ∀ (w : Word) (op : Op), Op.ofCode (opField w) = some op →
    (decode w = .error .reservedBits ↔ ∃ k, mustBeZero op k = true ∧ w.getLsbD k = true)

/-- R55, R62: a SETBYTE word without a reserved bit is refused as BadLength exactly when N > 8, as StrayData exactly
when N ≤ 8 and a DATA bit at N or above is 1, and else it decodes to the SETBYTE of its N elements. -/
def Obligations.SetByteWords : Prop :=
  ∀ w : Word, opField w = 0x4 → (∀ k, mustBeZero .setByte k = true → w.getLsbD k = false) →
    (decode w = .error .badLength ↔ 8 < (lenField w).toNat) ∧
      (decode w = .error .strayData ↔
        (lenField w).toNat ≤ 8 ∧ ∃ k, (lenField w).toNat ≤ k ∧ k < 8 ∧ w.getLsbD (16 + k) = true) ∧
      ((lenField w).toNat ≤ 8 → (∀ k, (lenField w).toNat ≤ k → k < 8 → w.getLsbD (16 + k) = false) →
        ∃ vals, decode w = .ok (.setByte vals (w.getLsbD 4)) ∧ vals.length = (lenField w).toNat ∧
          ∀ k, k < vals.length → vals[k]? = some (w.getLsbD (16 + k)))

/-- R54: at most one row of the opcode table matches any word. -/
def Obligations.RowsDisjoint : Prop :=
  ∀ (op op' : Op) (w : Word), w &&& op.mask = op.pattern → w &&& op'.mask = op'.pattern → op = op'

/-- R64: the word column of the syntax table, for every index and selector a word can hold and every sequence of at most
8 elements, where `E` is the sum of `ek * 2 ^ k`. -/
def Obligations.SyntaxTableWords : Prop :=
  encode (.getByte false) = 0x00000001 ∧ encode (.getByte true) = 0x00000011 ∧ encode .chkByte = 0x00000005 ∧
    encode .recalc = 0x00000006 ∧
    (∀ (c : Nat) (v : Bool), c < 256 →
      encode (.setBit c v) = BitVec.ofNat 32 (2 + 32 * v.toNat + 256 * c) ∧
        encode (.getBit c v) = BitVec.ofNat 32 (3 + 16 * v.toNat + 256 * c) ∧
        encode (.bget c v) = BitVec.ofNat 32 (8 + 16 * v.toNat + 256 * c) ∧
        encode (.bset c v) = BitVec.ofNat 32 (9 + 32 * v.toNat + 256 * c) ∧
        encode (.bflip c v) = BitVec.ofNat 32 (10 + 16 * v.toNat + 256 * c) ∧
        encode (.bchk c) = BitVec.ofNat 32 (11 + 256 * c)) ∧
    ∀ (vals : List Bool), vals.length ≤ 8 →
      let e := ((List.range vals.length).map fun k => (vals.getD k false).toNat * 2 ^ k).sum
      encode (.setByte vals true) = BitVec.ofNat 32 (0x00000014 + e * 2 ^ 16 + vals.length * 2 ^ 24) ∧
        encode (.setByte vals false) = BitVec.ofNat 32 (0x00000004 + e * 2 ^ 16 + vals.length * 2 ^ 24)

/-- R64: every command that has a word is read back from its line of assembler text. -/
def Obligations.ParseOfWrite : Prop :=
  ∀ instr : Instr, instr.wf = true → parseLine (writeLine instr) = some instr

/-- R65: a pseudo-command, whatever its operands, is read as its expansion. -/
def Obligations.PseudoCommandsExpand : Prop :=
  parseLine "clrbyte".toList = some (.setByte [] true) ∧
    ∀ operands : List Char,
      parseLine ("inject ".toList ++ operands) = parseLine ("bflip.raw ".toList ++ operands) ∧
        parseLine ("repair ".toList ++ operands) = parseLine ("setbit ".toList ++ operands)

/-! ## Reset and the configuration -/

/-- R15: the mux gives the two enables of the source's formulas. -/
def Obligations.MuxDecodesLevel : Prop :=
  ∀ level : BitVec 2, (mux level).byteParity = decide (level.toNat % 2 = 1) ∧
    (mux level).bitParity = decide (level.toNat ≥ 2)

/-- R28, R29: what a reset leaves in the cells, whatever was there before. -/
def Obligations.ResetCellValues : Prop :=
  ∀ (s : State) (inp : ResetInputs) (rest : List HostEvent),
    ∃ t, step { s with host := .reset inp :: rest } = .next t ∧
      (inp.cfgKind = .bitUnit →
        t.block.cells = [{ data := false, shadow := if inp.cfgPe.getD false then some false else none }] ∧
          t.block.bp = none) ∧
      (inp.cfgKind = .byteUnit →
        t.block.cells = List.replicate 8
            { data := false, shadow := if (inp.cfgLevel.getD 1).toNat ≥ 2 then some false else none } ∧
          t.block.bp = if (inp.cfgLevel.getD 1).toNat % 2 = 1 then some { data := true, shadow := none } else none)

/-- R14, R50: a reset latches its inputs, with the source's defaults where the host supplies none. That the mark and
the response are cleared is the model's choice (log entries 4 and 5). -/
def Obligations.ResetLatchesInputs : Prop :=
  ∀ (s : State) (inp : ResetInputs) (rest : List HostEvent),
    ∃ t, step { s with host := .reset inp :: rest } = .next t ∧
      t.block.cfg = { kind := inp.cfgKind, parityEnabled := inp.cfgPe.getD false,
                      parityLevel := inp.cfgLevel.getD 1 } ∧
      t.host = rest ∧ t.mark = none ∧ t.response = none

/-- R115: a level given as an integer is refused outside 0..3, never mapped into range. -/
def Obligations.LevelOutsideRangeRefused : Prop :=
  ∀ level : Int, (levelOfInt level = none ↔ level < 0 ∨ 3 < level) ∧
    ∀ l, levelOfInt level = some l → (l.toNat : Int) = level

/-- R31: every reset state is consistent and has the storage its configuration calls for. -/
def Obligations.ResetStateConsistent : Prop :=
  ∀ (inp : ResetInputs) (events : List HostEvent),
    (State.afterReset inp events).Inv ∧ (State.afterReset inp events).block.consistent = true

/-- The model's reset state: a Byte unit at the source's default level 1. The unit's kind (log entry 2), the empty
response port (log entry 4) and the clear mark (log entry 5) are the model's choices. -/
def Obligations.ModelResetState : Prop :=
  State.reset.block.cfg = { kind := .byteUnit, parityEnabled := false, parityLevel := 1 } ∧ State.reset.Inv ∧
    State.reset.host = [] ∧ State.reset.response = none ∧ State.reset.mark = none ∧
    State.reset.block.rawData = List.replicate 8 false ∧ State.reset.block.bpData = some true

/-- R14: nothing but a reset changes the configuration. -/
def Obligations.ConfigurationFixed : Prop :=
  ∀ s t : State, (∀ inp, s.host.head? ≠ some (.reset inp)) → step s = .next t → t.block.cfg = s.block.cfg

/-- R20, R35: in a block that has its form, a selector is in the space exactly when its cell is present, and a cell has
a shadow exactly as the table of R20 says. -/
def Obligations.SelectorSpaceIsPresence : Prop :=
  ∀ (b : Block) (c : Nat), b.wf = true →
    (b.inSpace c = true ↔ (b.cell? c).isSome = true) ∧
      ∀ x, b.cell? c = some x →
        (x.hasShadow = true ↔
          (b.cfg.kind = .bitUnit ∧ b.cfg.parityEnabled = true) ∨
            (b.cfg.kind = .byteUnit ∧ c < 8 ∧ 2 ≤ b.cfg.parityLevel.toNat))

/-! ## The step -/

/-- A step at which the host sends a word that decodes is exactly its command, run after the word is off the port. -/
def Obligations.StepRunsDecodedCommand : Prop :=
  ∀ (s : State) (w : Word) (instr : Instr) (rest : List HostEvent),
    s.host = .command w :: rest → decode w = .ok instr → step s = exec instr { s with host := rest }

/-- R55, R99: a word refused at decode time answers status 3 and changes nothing in the block. The mark's reason is
log entry 5. -/
def Obligations.StepRefusesUndecodableWord : Prop :=
  ∀ (s : State) (w : Word) (r : Reason) (rest : List HostEvent),
    s.host = .command w :: rest → decode w = .error r →
      step s = .next { s with host := rest, response := some { status := 3, rdata := 0 },
                              mark := some (s.mark.getD r) }

/-- R113: with nothing sent the block stays as it is. That the response port then shows nothing is log entry 4. -/
def Obligations.StepIdleKeepsBlock : Prop :=
  ∀ s : State, s.host = [] → step s = .next { s with response := none }

/-- R102, R112: no step stops the machine. -/
def Obligations.StepAlwaysAnswers : Prop := ∀ s : State, ∃ t, step s = .next t

/-- Every step keeps the storage in the form its configuration calls for (R16 to R20). -/
def Obligations.StepKeepsStorageForm : Prop :=
  ∀ s t : State, s.Inv → step s = .next t → t.Inv

/-- R50, R44: one response for each command word sent, in order: the k-th is what a step answers to the k-th word on the
block that the words before it left. -/
def Obligations.OneResponsePerCommand : Prop :=
  ∀ (inp : ResetInputs) (ws : List Word), (observeRun inp ws).1.length = ws.length ∧
    ∀ (k : Nat) (w : Word), ws[k]? = some w →
      ∃ t r, step { block := (observeRun inp (ws.take k)).2, response := none, mark := none,
                    host := [.command w] } = .next t ∧
        t.response = some r ∧ (observeRun inp ws).1[k]? = some r

/-- R126: a run answers and leaves what the word interface does, up to its first refusal, and ends there in the refused
outcome. That the refused command then adds no response to the run is log entry 14. -/
def Obligations.RunEndsAtFirstRefusal : Prop :=
  ∀ (inp : ResetInputs) (ws : List Word),
    ((runOfWords inp ws).refusal = none →
        observeRun inp ws = ((runOfWords inp ws).responses, (runOfWords inp ws).final) ∧
          ∀ r ∈ (runOfWords inp ws).responses, r.status ≠ 3) ∧
      ∀ why, (runOfWords inp ws).refusal = some why →
        ∃ before w rest, ws = before ++ w :: rest ∧ (runOfWords inp before).refusal = none ∧
          (runOfWords inp ws).responses = (runOfWords inp before).responses ∧
          (runOfWords inp ws).final = (runOfWords inp before).final ∧
          (observeRun inp (before ++ [w])).1 =
            (runOfWords inp before).responses ++ [{ status := 3, rdata := 0 }]

/-! ## How commands end -/

/-- R11, R60, R97, R102: a command that does not answer OK has `rdata = 0x00` and leaves the block as it was. -/
def Obligations.ErrorsWriteNothing : Prop :=
  ∀ (instr : Instr) (s : State), ∃ t r, exec instr s = .next t ∧ t.response = some r ∧ t.host = s.host ∧
    (r.status ≠ 0 → r.rdata = 0 ∧ t.block = s.block)

/-- R43: the five reading commands write no state. -/
def Obligations.ReadsWriteNothing : Prop :=
  ∀ (instr : Instr) (s t : State), readOnly instr = true → exec instr s = .next t → t.block = s.block

/-- R43: SETBIT, SETBYTE, BSET and RECALC are idempotent. -/
def Obligations.WritesIdempotent : Prop :=
  ∀ (instr : Instr) (s t u : State), readOnly instr = false → (∀ c honor, instr ≠ .bflip c honor) →
    exec instr s = .next t → exec instr t = .next u → u.block = t.block

/-- R95: ParityMismatch comes from BGET, GETBIT, GETBYTE and CHKBYTE only. -/
def Obligations.MismatchRaisers : Prop :=
  ∀ (instr : Instr) (s t : State) (r : Response), exec instr s = .next t → t.response = some r → r.status = 1 →
    (∃ c, instr = .bget c false) ∨ (∃ idx, instr = .getBit idx false) ∨ instr = .getByte false ∨ instr = .chkByte

/-- R57: on a Bit unit the six Byte commands are refused as WrongUnit (an overlong SETBYTE has no word: R59), and no
Bit command is ever refused so, on either kind. -/
def Obligations.WrongUnitRefusals : Prop :=
  ∀ (instr : Instr) (s : State), instr.wf = true →
    (s.block.cfg.kind = .bitUnit → byteOnly instr = true →
      outcome instr s.block = .refuse .wrongUnit ∧
        ∃ t, exec instr s = .next t ∧ t.response = some { status := 3, rdata := 0 } ∧ t.block = s.block) ∧
      (byteOnly instr = false → outcome instr s.block ≠ .refuse .wrongUnit)

/-- R58, R35: CapabilityAbsent and BadSelector come from these conditions and from nothing else; R99: what the word
interface answers to any refusal. -/
def Obligations.CapabilityRefusals : Prop :=
  ∀ (s : State) (instr : Instr), s.Inv →
    (outcome instr s.block = .refuse .capabilityAbsent ↔
        ((instr = .chkByte ∨ instr = .recalc) ∧ s.block.cfg.kind = .byteUnit ∧ s.block.cfg.byteParity = false) ∨
          ∃ c x, instr = .bchk c ∧ s.block.inSpace c = true ∧ s.block.cell? c = some x ∧ x.shadow = none) ∧
      (outcome instr s.block = .refuse .badSelector ↔
        ∃ c v, (instr = .bget c v ∨ instr = .bset c v ∨ instr = .bflip c v ∨ instr = .bchk c) ∧
          s.block.inSpace c = false) ∧
      ∀ r, outcome instr s.block = .refuse r →
        ∃ t, exec instr s = .next t ∧ t.response = some { status := 3, rdata := 0 } ∧ t.block = s.block

/-- R100: the first check that fails is the one reported: BadLength before WrongUnit, BadSelector before
CapabilityAbsent, WrongUnit before IndexOutOfRange, IndexOutOfRange before ParityMismatch. -/
def Obligations.FirstFailedCheckReported : Prop :=
  ∀ b : Block,
    (∀ vals le, 8 < vals.length → outcome (.setByte vals le) b = .refuse .badLength) ∧
      (∀ c, b.inSpace c = false → outcome (.bchk c) b = .refuse .badSelector) ∧
      (∀ idx v, b.cfg.kind = .bitUnit →
        outcome (.setBit idx v) b = .refuse .wrongUnit ∧ outcome (.getBit idx v) b = .refuse .wrongUnit) ∧
      (∀ idx v, b.cfg.kind = .byteUnit → idx < 0 ∨ 7 < idx →
        outcome (.setBit idx v) b = .raise (.indexOutOfRange idx) ∧
          outcome (.getBit idx v) b = .raise (.indexOutOfRange idx))

/-- R96: SETBIT and GETBIT on a Byte unit raise IndexOutOfRange exactly for an index below 0 or above 7, writing
nothing, and no other command raises it (a bad selector is refused). -/
def Obligations.IndexOutOfRangeCauses : Prop :=
  ∀ s : State, s.Inv →
    (∀ (idx : Int) (v : Bool), s.block.cfg.kind = .byteUnit → ∀ instr, instr = .setBit idx v ∨ instr = .getBit idx v →
      ∃ t, exec instr s = .next t ∧
        (t = { s with response := some { status := 2, rdata := 0 } } ↔ idx < 0 ∨ 7 < idx)) ∧
      (∀ instr t, (∀ idx v, instr ≠ .setBit idx v ∧ instr ≠ .getBit idx v) → exec instr s = .next t →
        ∀ r, t.response = some r → r.status ≠ 2) ∧
      (∀ c v instr, instr = .bget c v ∨ instr = .bset c v ∨ instr = .bflip c v ∨ instr = .bchk c →
        s.block.inSpace c = false → outcome instr s.block = .refuse .badSelector)

/-- R99: the mark is set exactly by a refusal, and then stays (its reason: log entry 5). -/
def Obligations.MarkIsSticky : Prop :=
  ∀ (instr : Instr) (s t : State), exec instr s = .next t →
    (∀ r, s.mark = some r → t.mark = some r) ∧
      (s.mark = none → (t.mark.isSome = true ↔ t.response = some { status := 3, rdata := 0 }))

/-- R99: the abstract model refuses a command exactly where the word interface answers status 3, and else takes the
same next state. -/
def Obligations.AbstractRefusalIsStatusThree : Prop :=
  ∀ (instr : Instr) (s t : State), s.mark = none → exec instr s = .next t →
    (t.response = some { status := 3, rdata := 0 } ↔ ∃ r, abstractExec instr s = .refused (.bySpec r)) ∧
      (t.response ≠ some { status := 3, rdata := 0 } → abstractExec instr s = .next t)

/-- R99: steps of the word interface that the host feeds with commands only are, one for one, those of the abstract
model, up to its first refusal. That the mark then names this first refusal's reason is the model's choice (log
entry 5). -/
def Obligations.WordRunRefinesAbstractRun : Prop :=
  ∀ (k : Nat) (s t : State), s.mark = none → commandsOnly s.host = true → Sys2Proof.core.run k s = .next t →
    (t.mark = none → abstractCore.run k s = .next t) ∧
      (∀ r, t.mark = some r → abstractCore.run k s = .refused (.bySpec r))

/-! ## The Bit commands -/

/-- R66: BGET answers the data of the cell, or raises ParityMismatch exactly when the cell has a shadow that differs
and the read is no override; it changes nothing. -/
def Obligations.BgetCheckedRead : Prop :=
  ∀ (s : State) (c : Nat) (ovr : Bool) (x : Cell), s.block.inSpace c = true → s.block.cell? c = some x →
    ((ovr = true ∨ x.shadow = none ∨ x.shadow = some x.data) →
        exec (.bget c ovr) s =
          .next { s with response := some { status := 0, rdata := BitVec.ofNat 8 x.data.toNat } }) ∧
      (ovr = false → x.shadow = some (!x.data) →
        exec (.bget c ovr) s = .next { s with response := some { status := 1, rdata := 0 } })

/-- R68: BSET writes the data and, where there is one, the shadow of its cell, and changes no other cell, not even the
byte-parity cell (R71). -/
def Obligations.BsetTrustedWrite : Prop :=
  ∀ (s : State) (c : Nat) (v : Bool) (x : Cell), s.block.inSpace c = true → s.block.cell? c = some x →
    ∃ t, exec (.bset c v) s = .next t ∧ t.response = some { status := 0, rdata := 0 } ∧ t.mark = s.mark ∧
      t.host = s.host ∧ t.block.cfg = s.block.cfg ∧
      (∃ y, t.block.cell? c = some y ∧ y.data = v ∧ (x.shadow = none → y.shadow = none) ∧
        (x.hasShadow = true → y.shadow = some v)) ∧
      ∀ k, k ≠ c → t.block.cell? k = s.block.cell? k

/-- R69: BFLIP inverts the data of its cell, the shadow too when honorParity is true and there is one, and changes no
other cell, not even the byte-parity cell (R71). -/
def Obligations.BflipInverts : Prop :=
  ∀ (s : State) (c : Nat) (honor : Bool) (x : Cell), s.block.inSpace c = true → s.block.cell? c = some x →
    ∃ t, exec (.bflip c honor) s = .next t ∧ t.response = some { status := 0, rdata := 0 } ∧ t.mark = s.mark ∧
      t.host = s.host ∧ t.block.cfg = s.block.cfg ∧
      (∃ y, t.block.cell? c = some y ∧ y.data = !x.data ∧ (honor = false ∨ x.shadow = none → y.shadow = x.shadow) ∧
        ∀ sh, honor = true → x.shadow = some sh → y.shadow = some (!sh)) ∧
      ∀ k, k ≠ c → t.block.cell? k = s.block.cell? k

/-- R70: BCHK on a cell with a shadow answers whether data and shadow agree, and changes nothing. -/
def Obligations.BchkReportsAgreement : Prop :=
  ∀ (s : State) (c : Nat) (d sh : Bool), s.block.inSpace c = true →
    s.block.cell? c = some { data := d, shadow := some sh } →
    exec (.bchk c) s = .next { s with response := some { status := 0, rdata := if d = sh then 1 else 0 } }

/-- R76, law 1: BSET then BGET answers the value, from every state, with and without override. -/
def Obligations.BsetBgetRoundTrip : Prop :=
  ∀ (s : State) (c : Nat) (v ovr : Bool) (x : Cell), s.block.inSpace c = true → s.block.cell? c = some x →
    ∃ t u, exec (.bset c v) s = .next t ∧ exec (.bget c ovr) t = .next u ∧
      u.response = some { status := 0, rdata := BitVec.ofNat 8 v.toNat }

/-- R76, laws 2 and 3: on a cell with a shadow, a trusted write is then checked correct; a raw flip after it is found by
BCHK and by BGET. -/
def Obligations.RawFlipDetected : Prop :=
  ∀ (s : State) (c : Nat) (v : Bool) (x : Cell), s.block.inSpace c = true → s.block.cell? c = some x →
    x.hasShadow = true →
    ∃ t t' u u' u'', exec (.bset c v) s = .next t ∧ exec (.bchk c) t = .next t' ∧
      t'.response = some { status := 0, rdata := 1 } ∧ exec (.bflip c false) t' = .next u ∧
      exec (.bchk c) u = .next u' ∧ u'.response = some { status := 0, rdata := 0 } ∧
      exec (.bget c false) u' = .next u'' ∧ u''.response = some { status := 1, rdata := 0 }

/-- R76, laws 4 and 5: two equal flips restore the block from every state; one clean flip keeps a cell's agreement or
disagreement as it was. -/
def Obligations.FlipTwiceRestores : Prop :=
  ∀ (s t u : State) (c : Nat) (honor : Bool), exec (.bflip c honor) s = .next t →
    exec (.bflip c honor) t = .next u →
    u.block = s.block ∧
      ∀ k, honor = true → (t.block.cell? k).map Cell.synced = (s.block.cell? k).map Cell.synced

/-- R123: on a Byte unit a cell's mismatch survives every command but a trusted write of that cell and a raw flip of
it. -/
def Obligations.BitTierMismatchPersists : Prop :=
  ∀ (instr : Instr) (s t : State) (k : Nat) (x : Cell), s.block.cfg.kind = .byteUnit → k < 8 →
    s.block.cell? k = some x → x.synced = false → exec instr s = .next t →
    (∀ v, instr ≠ .setBit k v) → (∀ vals le, instr ≠ .setByte vals le) → (∀ v, instr ≠ .bset k v) →
    instr ≠ .bflip k false →
    ∃ y, t.block.cell? k = some y ∧ y.synced = false

/-! ## The Byte commands -/

/-- R79: the byte-parity value of a count is the complement of the exclusive or of the bits, so the bits together with
it hold an odd number of ones. -/
def Obligations.GeneratedParityIsXor : Prop :=
  ∀ bits : List Bool, genBP (popcount bits) = !(bits.foldl xor false) ∧
    popcount (genBP (popcount bits) :: bits) % 2 = 1

/-- R88: little-endian placement reverses the supplied elements, big-endian keeps them, both from index 0, and both pad
the high indices with false. -/
def Obligations.PlacementOfElements : Prop :=
  ∀ vals : List Bool, vals.length ≤ 8 →
    place vals true = vals.reverse ++ List.replicate (8 - vals.length) false ∧
      place vals false = vals ++ List.replicate (8 - vals.length) false

/-- R84, R85: GETBYTE in closed form; it changes nothing but the response. -/
def Obligations.GetByteClosedForm : Prop :=
  ∀ (s : State) (ovr : Bool), s.Inv → s.block.cfg.kind = .byteUnit →
    let mismatch := ovr = false ∧
      ((s.block.cfg.bitParity = true ∧ ∃ k x, k < 8 ∧ s.block.cell? k = some x ∧ x.shadow ≠ some x.data) ∨
        (s.block.cfg.byteParity = true ∧
          s.block.dataAt 8 ≠ some (decide (s.block.rawData.count true % 2 = 0))))
    (mismatch → exec (.getByte ovr) s = .next { s with response := some { status := 1, rdata := 0 } }) ∧
      (¬mismatch → ∃ rd, exec (.getByte ovr) s = .next { s with response := some { status := 0, rdata := rd } } ∧
        ∀ k, k < 8 → s.block.dataAt k = some (rd.getLsbD k))

/-- R87: GETBIT in range is one checked read of a data cell; it changes nothing, and never looks at the byte-parity
cell. -/
def Obligations.GetBitCheckedRead : Prop :=
  ∀ (s : State) (k : Nat) (ovr : Bool) (x : Cell), s.block.cfg.kind = .byteUnit → k < 8 →
    s.block.cell? k = some x →
    ((ovr = true ∨ x.shadow = none ∨ x.shadow = some x.data) →
        exec (.getBit k ovr) s =
          .next { s with response := some { status := 0, rdata := BitVec.ofNat 8 x.data.toNat } }) ∧
      (ovr = false → x.shadow = some (!x.data) →
        exec (.getBit k ovr) s = .next { s with response := some { status := 1, rdata := 0 } })

/-- R86: SETBIT in range writes one data cell and its shadow, leaves every other data cell, and with byteParity makes
the byte-parity bit agree with the new data; without, there is no byte-parity cell. -/
def Obligations.SetBitWritesAndRecomputes : Prop :=
  ∀ (s : State) (k : Nat) (v : Bool), s.Inv → s.block.cfg.kind = .byteUnit → k < 8 →
    ∃ t, exec (.setBit k v) s = .next t ∧ t.response = some { status := 0, rdata := 0 } ∧ t.mark = s.mark ∧
      t.host = s.host ∧ t.block.cfg = s.block.cfg ∧
      t.block.cell? k = some { data := v, shadow := if s.block.cfg.bitParity then some v else none } ∧
      (∀ j, j < 8 → j ≠ k → t.block.cell? j = s.block.cell? j) ∧
      t.block.cell? 8 =
        if s.block.cfg.byteParity then
          some { data := decide (t.block.rawData.count true % 2 = 0), shadow := none }
        else none

/-- R89: SETBYTE writes every data cell and its shadow with the placement of its elements, and with byteParity makes the
byte-parity bit agree. -/
def Obligations.SetByteWritesAllCells : Prop :=
  ∀ (s : State) (vals : List Bool) (le : Bool), s.Inv → s.block.cfg.kind = .byteUnit → vals.length ≤ 8 →
    ∃ t, exec (.setByte vals le) s = .next t ∧ t.response = some { status := 0, rdata := 0 } ∧ t.mark = s.mark ∧
      t.host = s.host ∧ t.block.cfg = s.block.cfg ∧
      (∀ k, k < 8 → ∃ v, t.block.cell? k =
          some { data := v, shadow := if s.block.cfg.bitParity then some v else none } ∧
        (v = true ↔ (if le then vals.reverse else vals)[k]? = some true)) ∧
      t.block.cell? 8 =
        if s.block.cfg.byteParity then some { data := decide (vals.count true % 2 = 0), shadow := none } else none

/-- R81: CHKBYTE with byteParity answers whether the byte-parity bit agrees with the data; it raises ParityMismatch
exactly when some data cell's shadow differs; it changes nothing. -/
def Obligations.ChkByteChecksBothTiers : Prop :=
  ∀ s : State, s.Inv → s.block.cfg.byteParity = true →
    ((∀ k x sh, k < 8 → s.block.cell? k = some x → x.shadow = some sh → sh = x.data) →
        exec .chkByte s = .next { s with response := some (Response.mk 0
          (if s.block.dataAt 8 = some (decide (s.block.rawData.count true % 2 = 0)) then 1 else 0)) }) ∧
      ((∃ k x sh, k < 8 ∧ s.block.cell? k = some x ∧ x.shadow = some sh ∧ sh ≠ x.data) →
        exec .chkByte s = .next { s with response := some { status := 1, rdata := 0 } })

/-- R80, R83: RECALC with byteParity makes the byte-parity bit agree with the raw data, and changes no data cell and no
shadow. -/
def Obligations.RecalcSetsByteParity : Prop :=
  ∀ s : State, s.Inv → s.block.cfg.byteParity = true →
    ∃ t, exec .recalc s = .next t ∧ t.response = some { status := 0, rdata := 0 } ∧ t.mark = s.mark ∧
      t.host = s.host ∧ t.block.cfg = s.block.cfg ∧ (∀ k, k ≠ 8 → t.block.cell? k = s.block.cell? k) ∧
      t.block.cell? 8 = some { data := decide (s.block.rawData.count true % 2 = 0), shadow := none }

/-- R39: GETBYTE and GETBIT with the same override agree on every index where both answer OK. -/
def Obligations.GetByteAgreesWithGetBit : Prop :=
  ∀ (s t u : State) (k : Nat) (ovr : Bool) (rd rd' : Byte), k < 8 → exec (.getByte ovr) s = .next t →
    exec (.getBit k ovr) s = .next u → t.response = some { status := 0, rdata := rd } →
    u.response = some { status := 0, rdata := rd' } → rd' = if rd.getLsbD k then 1 else 0

/-- Sections 41 R84 and R88: from every state of a Byte unit, SETBYTE then GETBYTE answers the placed elements, at every
level, with and without override. -/
def Obligations.SetByteGetByteRoundTrip : Prop :=
  ∀ (s : State) (vals : List Bool) (le ovr : Bool), s.Inv → s.block.cfg.kind = .byteUnit → vals.length ≤ 8 →
    ∃ t u rd, exec (.setByte vals le) s = .next t ∧ exec (.getByte ovr) t = .next u ∧
      u.response = some { status := 0, rdata := rd } ∧
      ∀ k, k < 8 → (rd.getLsbD k = true ↔ (if le then vals.reverse else vals)[k]? = some true)

/-- R42, R89: SETBYTE leaves exactly what eight SETBITs in index order leave. -/
def Obligations.SetByteIsEightSetBits : Prop :=
  ∀ (s : State) (vals : List Bool) (le : Bool), s.Inv → s.Unrefused → s.block.cfg.kind = .byteUnit →
    vals.length ≤ 8 →
    ∃ t, exec (.setByte vals le) s = .next t ∧
      abstractRun ((List.range 8).map fun (k : Nat) => Instr.setBit k (placeAt vals le k)) s = .next t

/-- R92: every Byte command leaves a consistent Byte unit consistent. -/
def Obligations.ByteCommandsKeepConsistency : Prop :=
  ∀ (instr : Instr) (s t : State), s.block.Sound → byteOnly instr = true → exec instr s = .next t → t.block.Sound

/-- R92: after a reset of a Byte unit at any level and any unrefused
sequence of Byte commands, a plain GETBYTE answers OK: without direct cell access there is no false alarm. -/
def Obligations.NoFalseAlarm : Prop :=
  ∀ (inp : ResetInputs) (cmds : List Instr) (t : State), inp.cfgKind = .byteUnit →
    (∀ instr ∈ cmds, byteOnly instr = true) → abstractRun cmds (State.afterReset inp []) = .next t →
    ∃ u r, exec (.getByte false) t = .next u ∧ u.response = some r ∧ r.status = 0

/-- R93: after direct cell access only, at any level, a plain GETBYTE raises ParityMismatch exactly when, with
byteParity, an odd number of bits of D[0..7] and BP changed, or some data cell's shadow now differs from its data; an
override GETBYTE answers the data, changed or not. -/
def Obligations.OddCorruptionDetected : Prop :=
  ∀ (s t : State) (cmds : List Instr), s.block.Sound → s.Unrefused →
    (∀ instr ∈ cmds, byteOnly instr = false) → abstractRun cmds s = .next t →
    (∃ u, exec (.getByte false) t = .next u ∧
      (u.response = some { status := 1, rdata := 0 } ↔
        (s.block.cfg.byteParity = true ∧ changedBits s.block t.block % 2 = 1) ∨
          ∃ k x, k < 8 ∧ t.block.cell? k = some x ∧ x.shadow = some (!x.data))) ∧
      ∃ u rd, exec (.getByte true) t = .next u ∧ u.response = some { status := 0, rdata := rd } ∧
        ∀ k, k < 8 → t.block.dataAt k = some (rd.getLsbD k)

/-- R122: at level 1 a recompute, by a SETBIT of any index or by RECALC, hides every earlier corruption from GETBYTE
and CHKBYTE. -/
def Obligations.RecomputeHidesCorruption : Prop :=
  ∀ (s t : State) (instr : Instr), s.Inv → s.block.cfg.kind = .byteUnit → s.block.cfg.parityLevel = 1 →
    (instr = .recalc ∨ ∃ (k : Nat) (v : Bool), k < 8 ∧ instr = .setBit k v) → exec instr s = .next t →
    ∃ u u' rd, exec (.getByte false) t = .next u ∧ u.response = some { status := 0, rdata := rd } ∧
      exec .chkByte t = .next u' ∧ u'.response = some { status := 0, rdata := 1 }

/-- R26, R84, R87, R72: what an override read answers depends on the data alone: no shadow reaches it. -/
def Obligations.OverrideReadsSeeDataOnly : Prop :=
  ∀ (s s' t t' : State) (instr : Instr),
    (instr = .getByte true ∨ (∃ idx, instr = .getBit idx true) ∨ ∃ c, instr = .bget c true) →
    s.Inv → s'.Inv → s.block.cfg = s'.block.cfg → s.block.rawData = s'.block.rawData →
    s.block.bpData = s'.block.bpData → exec instr s = .next t → exec instr s' = .next t' →
    t.response = t'.response
end

