-- ==== Sys2Proof/Laws/State.lean ====
section
/-! SUPPORT. One lemma per field per update of the state. -/

namespace Sys2Proof.Machine

@[simp] theorem State.succeed_block (s : State) (r : Result) (b : Block) : (s.succeed r b).block = b := rfl
@[simp] theorem State.succeed_response (s : State) (r : Result) (b : Block) :
    (s.succeed r b).response = some (okResponse r.rdata) := rfl
@[simp] theorem State.succeed_mark (s : State) (r : Result) (b : Block) : (s.succeed r b).mark = s.mark := rfl
@[simp] theorem State.succeed_host (s : State) (r : Result) (b : Block) : (s.succeed r b).host = s.host := rfl

@[simp] theorem State.raise_block (s : State) (e : CmdError) : (s.raise e).block = s.block := rfl
@[simp] theorem State.raise_response (s : State) (e : CmdError) :
    (s.raise e).response = some e.status.bare := rfl
@[simp] theorem State.raise_mark (s : State) (e : CmdError) : (s.raise e).mark = s.mark := rfl
@[simp] theorem State.raise_host (s : State) (e : CmdError) : (s.raise e).host = s.host := rfl

@[simp] theorem State.refuse_block (s : State) (r : Reason) : (s.refuse r).block = s.block := rfl
@[simp] theorem State.refuse_response (s : State) (r : Reason) :
    (s.refuse r).response = some Status.refused.bare := rfl
@[simp] theorem State.refuse_mark (s : State) (r : Reason) : (s.refuse r).mark = some (s.mark.getD r) := rfl
@[simp] theorem State.refuse_host (s : State) (r : Reason) : (s.refuse r).host = s.host := rfl

@[simp] theorem State.taken_block (s : State) (es : List HostEvent) : (s.taken es).block = s.block := rfl
@[simp] theorem State.taken_response (s : State) (es : List HostEvent) :
    (s.taken es).response = s.response := rfl
@[simp] theorem State.taken_mark (s : State) (es : List HostEvent) : (s.taken es).mark = s.mark := rfl
@[simp] theorem State.taken_host (s : State) (es : List HostEvent) : (s.taken es).host = es := rfl

@[simp] theorem State.idle_block (s : State) : s.idle.block = s.block := rfl
@[simp] theorem State.idle_response (s : State) : s.idle.response = none := rfl
@[simp] theorem State.idle_mark (s : State) : s.idle.mark = s.mark := rfl
@[simp] theorem State.idle_host (s : State) : s.idle.host = s.host := rfl

@[simp] theorem State.afterReset_block (inp : ResetInputs) (es : List HostEvent) :
    (State.afterReset inp es).block = Block.construct inp.latch := rfl
@[simp] theorem State.afterReset_response (inp : ResetInputs) (es : List HostEvent) :
    (State.afterReset inp es).response = none := rfl
@[simp] theorem State.afterReset_mark (inp : ResetInputs) (es : List HostEvent) :
    (State.afterReset inp es).mark = none := rfl
@[simp] theorem State.afterReset_host (inp : ResetInputs) (es : List HostEvent) :
    (State.afterReset inp es).host = es := rfl

@[simp] theorem State.withFetchWord_block (s : State) (n w : Nat) : (s.withFetchWord n w).block = s.block := rfl
@[simp] theorem State.withFetchWord_response (s : State) (n w : Nat) :
    (s.withFetchWord n w).response = s.response := rfl
@[simp] theorem State.withFetchWord_mark (s : State) (n w : Nat) : (s.withFetchWord n w).mark = s.mark := rfl
@[simp] theorem State.withFetchWord_host (s : State) (n w : Nat) :
    (s.withFetchWord n w).host = .command (BitVec.ofNat 32 (w % 2 ^ n)) :: s.host := rfl

@[simp] theorem State.complete_ret (s : State) (r : Result) (b : Block) :
    s.complete (.ret r b) = s.succeed r b := rfl
@[simp] theorem State.complete_raise (s : State) (e : CmdError) : s.complete (.raise e) = s.raise e := rfl
@[simp] theorem State.complete_refuse (s : State) (r : Reason) : s.complete (.refuse r) = s.refuse r := rfl

/-- However a command ends, it takes nothing from the host's port. -/
@[simp] theorem State.complete_host (s : State) (o : CmdOut) : (s.complete o).host = s.host := by
  cases o <;> rfl

end Sys2Proof.Machine
end

