-- ==== Sys2Proof/Laws/Cells.lean ====
section
/-! SUPPORT. What the cell primitives and the cell accessors do. -/

namespace Sys2Proof.Machine

@[simp] theorem Cell.set_data (v : Bool) (x : Cell) : (x.set v).data = v := rfl
@[simp] theorem Cell.set_shadow (v : Bool) (x : Cell) : (x.set v).shadow = x.shadow.map fun _ => v := rfl
@[simp] theorem Cell.flip_data (honor : Bool) (x : Cell) : (x.flip honor).data = !x.data := rfl
@[simp] theorem Cell.flip_shadow (honor : Bool) (x : Cell) :
    (x.flip honor).shadow = if honor then x.shadow.map not else x.shadow := rfl
@[simp] theorem Cell.hasShadow_set (v : Bool) (x : Cell) : (x.set v).hasShadow = x.hasShadow := by
  simp [Cell.hasShadow]
@[simp] theorem Cell.hasShadow_flip (honor : Bool) (x : Cell) : (x.flip honor).hasShadow = x.hasShadow := by
  cases honor <;> simp [Cell.hasShadow]
@[simp] theorem Cell.hasShadow_fresh (pe : Bool) : (Cell.fresh pe).hasShadow = pe := by
  cases pe <;> rfl
@[simp] theorem Cell.synced_set (v : Bool) (x : Cell) : (x.set v).synced = true := by
  cases h : x.shadow <;> simp [Cell.synced, h]

/-- Everything a checked read can do: it answers the data, or it raises because it is not overridden and the shadow
differs. -/
theorem Cell.get_cases (ovr : Bool) (x : Cell) :
    ((ovr || x.synced) = true ∧ x.get ovr = .ok x.data) ∨
      ((ovr || x.synced) = false ∧ x.get ovr = .error .parityMismatch) := by
  cases h : x.shadow with
  | none => left; simp [Cell.get, Cell.synced, h]
  | some sh =>
    by_cases hm : (ovr || x.data == sh) = true
    · left; simp only [Cell.get, Cell.synced, h, hm, if_true, and_self]
    · right; simp only [Cell.get, Cell.synced, h, hm, Bool.false_eq_true, if_false, and_true]

/-- A checked read of a cell whose shadow is in step, or an override read, answers the data. -/
theorem Cell.get_ok {ovr : Bool} {x : Cell} (h : (ovr || x.synced) = true) : x.get ovr = .ok x.data := by
  rcases Cell.get_cases ovr x with ⟨-, h'⟩ | ⟨h', -⟩
  · exact h'
  · rw [h] at h'; cases h'

@[simp] theorem Block.modifyCell_cfg (b : Block) (c : Nat) (f : Cell → Cell) : (b.modifyCell c f).cfg = b.cfg := by
  unfold Block.modifyCell; split <;> rfl

/-- What replacing one cell does to every cell: `f` at its selector, nothing elsewhere. -/
theorem Block.cell?_modifyCell (b : Block) (c k : Nat) (f : Cell → Cell) :
    (b.modifyCell c f).cell? k = if k = c then (b.cell? k).map f else b.cell? k := by
  unfold Block.modifyCell Block.cell?
  by_cases hc : c = Config.bpSelector
  · by_cases hk : k = c <;> simp_all
  · by_cases hk : k = Config.bpSelector
    · have : k ≠ c := fun h => hc (h ▸ hk)
      simp_all
    · simp only [hc, hk, if_false, List.getElem?_modify]
      by_cases hkc : c = k
      · simp [hkc]
      · simp [hkc, Ne.symm hkc]

@[simp] theorem Block.inSpace_modifyCell (b : Block) (c k : Nat) (f : Cell → Cell) :
    (b.modifyCell c f).inSpace k = b.inSpace k := by
  simp [Block.inSpace]

/-- A selected cell is a cell of the selector space that is present. -/
theorem Block.selected_eq_some {b : Block} {c : Nat} {x : Cell} :
    b.selected c = some x ↔ b.inSpace c = true ∧ b.cell? c = some x := by
  unfold Block.selected; split <;> simp_all

/-- Outside the selector space no cell is selected. -/
theorem Block.selected_of_not_inSpace {b : Block} {c : Nat} (h : b.inSpace c = false) : b.selected c = none := by
  simp [Block.selected, h]

end Sys2Proof.Machine
end

