-- ==== Sys2Proof/Laws/Block.lean ====
section
/-! SUPPORT. The storage keeps its form: every operation on the cells keeps `Block.wf`. -/

namespace Sys2Proof.Machine

/-- `Block.wf` in three parts: how many cells, which have shadows, and whether there is a byte-parity cell. -/
theorem Block.wf_iff (b : Block) :
    b.wf = true ↔ b.cells.length = b.cfg.cellCount ∧ (∀ x ∈ b.cells, x.hasShadow = b.cfg.shadowed) ∧
      (b.bp = none ∧ b.cfg.byteParity = false ∨
        ∃ x, b.bp = some x ∧ b.cfg.byteParity = true ∧ x.hasShadow = false) := by
  unfold Block.wf
  cases h : b.bp <;> simp [and_assoc]

/-- A change of one cell that adds and removes no shadow keeps the storage's form. -/
theorem Block.wf_modifyCell {b : Block} (c : Nat) {f : Cell → Cell}
    (hf : ∀ x, (f x).hasShadow = x.hasShadow) (h : b.wf = true) : (b.modifyCell c f).wf = true := by
  rw [Block.wf_iff] at h ⊢
  obtain ⟨hl, hs, hb⟩ := h
  rw [Block.modifyCell_cfg]
  unfold Block.modifyCell
  split
  · refine ⟨hl, hs, ?_⟩
    rcases hb with ⟨hn, hp⟩ | ⟨x, hx, hp, hxs⟩
    · exact .inl ⟨by simp [hn], hp⟩
    · exact .inr ⟨f x, by simp [hx], hp, by rw [hf, hxs]⟩
  · refine ⟨by simpa using hl, ?_, hb⟩
    intro x hx
    obtain ⟨k, hk⟩ := List.getElem?_of_mem hx
    rw [List.getElem?_modify] at hk
    cases hy : b.cells[k]? with
    | none => simp [hy] at hk
    | some y =>
      have := hs y (List.mem_of_getElem? hy)
      by_cases hc : c = k <;> simp [hy, hc] at hk <;> simp [← hk, hf, this]

/-- The trusted write keeps the storage's form. -/
theorem Block.wf_set {b : Block} (c : Nat) (v : Bool) (h : b.wf = true) :
    (b.modifyCell c (Cell.set v)).wf = true :=
  b.wf_modifyCell c (Cell.hasShadow_set v) h

/-- The flip keeps the storage's form. -/
theorem Block.wf_flip {b : Block} (c : Nat) (honor : Bool) (h : b.wf = true) :
    (b.modifyCell c (Cell.flip honor)).wf = true :=
  b.wf_modifyCell c (Cell.hasShadow_flip honor) h

@[simp] theorem Block.byteRecalc_cfg (b : Block) : b.byteRecalc.cfg = b.cfg := by simp [Block.byteRecalc]
@[simp] theorem Block.byteRecalc_cells (b : Block) : b.byteRecalc.cells = b.cells := by
  simp [Block.byteRecalc, Block.modifyCell]
@[simp] theorem Block.byteRecalc_popRaw (b : Block) : b.byteRecalc.popRaw = b.popRaw := by
  simp [Block.popRaw, Block.rawData]
@[simp] theorem Block.recalcIfEnabled_cfg (b : Block) : b.recalcIfEnabled.cfg = b.cfg := by
  unfold Block.recalcIfEnabled; split <;> simp
@[simp] theorem Block.recalcIfEnabled_cells (b : Block) : b.recalcIfEnabled.cells = b.cells := by
  unfold Block.recalcIfEnabled; split <;> simp

/-- The recompute writes the byte-parity cell and nothing else. -/
theorem Block.byteRecalc_bp (b : Block) : b.byteRecalc.bp = b.bp.map (Cell.set (genBP b.popRaw)) := by
  simp [Block.byteRecalc, Block.modifyCell]

/-- The recompute keeps the storage's form. -/
theorem Block.wf_recalcIfEnabled {b : Block} (h : b.wf = true) : b.recalcIfEnabled.wf = true := by
  unfold Block.recalcIfEnabled
  split
  · exact Block.wf_set _ _ h
  · exact h

@[simp] theorem Block.setAll_cfg (b : Block) (vals : List Bool) : (b.setAll vals).cfg = b.cfg := rfl
@[simp] theorem Block.setAll_bp (b : Block) (vals : List Bool) : (b.setAll vals).bp = b.bp := rfl
@[simp] theorem place_length (vals : List Bool) (le : Bool) : (place vals le).length = Config.nbits := by
  simp [place]

/-- Writing all eight cells keeps the storage's form. -/
theorem Block.wf_setAll {b : Block} (vals : List Bool) (hv : vals.length = b.cells.length) (h : b.wf = true) :
    (b.setAll vals).wf = true := by
  rw [Block.wf_iff] at h ⊢
  obtain ⟨hl, hs, hb⟩ := h
  refine ⟨by simp [Block.setAll, hv, hl], ?_, hb⟩
  intro x hx
  obtain ⟨k, hk⟩ := List.getElem?_of_mem hx
  simp only [Block.setAll, List.getElem?_zipWith] at hk
  cases hv' : vals[k]? with
  | none => simp [hv'] at hk
  | some v =>
    cases hc : b.cells[k]? with
    | none => simp [hv', hc] at hk
    | some y =>
      simp only [hv', hc, Option.some.injEq] at hk
      rw [← hk, Cell.hasShadow_set]
      exact hs y (List.mem_of_getElem? hc)

/-- Construction gives the storage its form. -/
theorem Block.wf_construct (cfg : Cfg) : (Block.construct cfg).wf = true := by
  rw [Block.wf_iff]
  refine ⟨by simp [Block.construct], ?_, ?_⟩
  · intro x hx
    rw [List.eq_of_mem_replicate hx, Cell.hasShadow_fresh]; rfl
  · by_cases h : cfg.byteParity = true
    · exact .inr ⟨freshBp, by simp [Block.construct, h], h, rfl⟩
    · exact .inl ⟨by simp [Block.construct, h], by simpa [Block.construct] using h⟩

end Sys2Proof.Machine
end

