-- ==== Sys2Proof/Laws/Reads.lean ====
section
/-! SUPPORT. What the checked reads of several cells can do. -/

namespace Sys2Proof.Machine

/-- Everything `readCells` can do: all the data in order, or a mismatch because it is not overridden and some cell's
shadow differs. -/
theorem readCells_cases (ovr : Bool) (xs : List Cell) :
    ((ovr || xs.all Cell.synced) = true ∧ readCells ovr xs = .ok (xs.map Cell.data)) ∨
      ((ovr || xs.all Cell.synced) = false ∧ readCells ovr xs = .error .parityMismatch) := by
  induction xs with
  | nil => left; simp [readCells]
  | cons x xs ih =>
    rcases Cell.get_cases ovr x with ⟨hx, hg⟩ | ⟨hx, hg⟩
    · rcases ih with ⟨ha, hr⟩ | ⟨ha, hr⟩
      · left
        refine ⟨?_, by simp [readCells, hg, hr]⟩
        cases ovr <;> simp_all
      · right
        refine ⟨?_, by simp [readCells, hg, hr]⟩
        cases ovr <;> simp_all
    · right
      refine ⟨?_, by simp [readCells, hg]⟩
      cases ovr <;> simp_all

/-- Everything `ByteCheck` can do. -/
theorem Block.byteCheck_cases (b : Block) :
    (b.cells.all Cell.synced = true ∧ b.byteCheck = .ok (b.bpData == some (genBP b.popRaw))) ∨
      (b.cells.all Cell.synced = false ∧ b.byteCheck = .error .parityMismatch) := by
  rcases readCells_cases false b.cells with ⟨h, hr⟩ | ⟨h, hr⟩
  · exact .inl ⟨by simpa using h, by simp [Block.byteCheck, Block.popChecked, hr, Block.popRaw, Block.rawData]⟩
  · exact .inr ⟨by simpa using h, by simp [Block.byteCheck, Block.popChecked, hr]⟩

end Sys2Proof.Machine
end

