-- ==== Sys2Proof/Laws/Exec.lean ====
section
/-! SUPPORT. What one command, and one step, can do. -/

namespace Sys2Proof.Machine

/-- At the word interface a command always ends, as its outcome says. -/
theorem exec_eq_complete (instr : Instr) (s : State) :
    exec instr s = .next (s.complete (outcome instr s.block)) := by
  cases instr <;> rfl

/-- Everything the end of a command can do to the state. -/
theorem State.complete_cases (s : State) (o : CmdOut) :
    (∃ r b, o = .ret r b ∧ s.complete o = { s with block := b, response := some (okResponse r.rdata) }) ∨
      (∃ e, o = .raise e ∧ s.complete o = { s with response := some e.status.bare }) ∨
      (∃ r, o = .refuse r ∧
        s.complete o = { s with response := some Status.refused.bare, mark := some (s.mark.getD r) }) := by
  cases o with
  | ret r b => exact .inl ⟨r, b, rfl, rfl⟩
  | raise e => exact .inr (.inl ⟨e, rfl, rfl⟩)
  | refuse r => exact .inr (.inr ⟨r, rfl, rfl⟩)

/-- A step with nothing sent. -/
theorem step_idle {s : State} (h : s.host = []) : step s = .next s.idle := by
  simp [step, h]

/-- A step with a reset sent. -/
theorem step_reset {s : State} {inp : ResetInputs} {rest : List HostEvent} (h : s.host = .reset inp :: rest) :
    step s = .next (State.afterReset inp rest) := by
  simp [step, h]

/-- A step with a word sent that is refused at decode time. -/
theorem step_undecodable {s : State} {w : Word} {r : Reason} {rest : List HostEvent}
    (h : s.host = .command w :: rest) (hd : decode w = .error r) :
    step s = .next ((s.taken rest).refuse r) := by
  simp [step, h, hd]

/-- On a Byte unit, `requireByte` lets the command through. -/
theorem Block.requireByte_byte {b : Block} (h : b.cfg.kind = .byteUnit) (o : CmdOut) : b.requireByte o = o := by
  simp [Block.requireByte, h]

/-- On a Bit unit, `requireByte` refuses. -/
theorem Block.requireByte_bit {b : Block} (h : b.cfg.kind = .bitUnit) (o : CmdOut) :
    b.requireByte o = .refuse .wrongUnit := by
  simp [Block.requireByte, h]

/-- With `byteParity`, `requireByteParity` lets the command through. -/
theorem Block.requireByteParity_on {b : Block} (h : b.cfg.byteParity = true) (o : CmdOut) :
    b.requireByteParity o = o := by
  simp [Block.requireByteParity, h]

/-- Without `byteParity`, `requireByteParity` refuses. -/
theorem Block.requireByteParity_off {b : Block} (h : b.cfg.byteParity = false) (o : CmdOut) :
    b.requireByteParity o = .refuse .capabilityAbsent := by
  simp [Block.requireByteParity, h]

/-- In range, `requireIndex` lets the command through. -/
theorem requireIndex_in {idx : Int} (h : indexInRange idx = true) (o : CmdOut) : requireIndex idx o = o := by
  simp [requireIndex, h]

/-- Out of range, `requireIndex` raises. -/
theorem requireIndex_out {idx : Int} (h : indexInRange idx = false) (o : CmdOut) :
    requireIndex idx o = .raise (.indexOutOfRange idx) := by
  simp [requireIndex, h]

end Sys2Proof.Machine
end

