-- ==== Sys2Proof/Laws/PerInstr.lean ====
section
/-! SUPPORT. The family OpcodeField: the encoder puts every command's opcode into OP (spec/30_encoding.md R53). -/

namespace Sys2Proof.Laws.OpcodeField

/-- The OP field of the command's word is its row's opcode. -/
def Statement (instr : Instr) : Prop := opField (encode instr) = instr.op.code

/-- The low four bits of an assembled word are the opcode. -/
theorem opField_assembleWord (op : Op) (f v : Bool) (idx dat : BitVec 8) (n : BitVec 4) :
    opField (assembleWord op f v idx dat n) = op.code := by
  unfold opField assembleWord
  ext k hk
  have h32 : k < 32 := by omega
  have hOp : ∀ j, k < j → decide (k < j) = true := fun j hj => by simpa using hj
  simp [BitVec.getElem_extractLsb', h32, hk, hOp 5 (by omega), hOp 8 (by omega), hOp 16 (by omega),
    hOp 24 (by omega)]

theorem getByte (ovr : Bool) : Statement (.getByte ovr) := opField_assembleWord ..
theorem setBit (idx : Int) (v : Bool) : Statement (.setBit idx v) := opField_assembleWord ..
theorem getBit (idx : Int) (ovr : Bool) : Statement (.getBit idx ovr) := opField_assembleWord ..
theorem setByte (vals : List Bool) (le : Bool) : Statement (.setByte vals le) := opField_assembleWord ..
theorem chkByte : Statement .chkByte := opField_assembleWord ..
theorem recalc : Statement .recalc := opField_assembleWord ..
theorem bget (c : Nat) (ovr : Bool) : Statement (.bget c ovr) := opField_assembleWord ..
theorem bset (c : Nat) (v : Bool) : Statement (.bset c v) := opField_assembleWord ..
theorem bflip (c : Nat) (honor : Bool) : Statement (.bflip c honor) := opField_assembleWord ..
theorem bchk (c : Nat) : Statement (.bchk c) := opField_assembleWord ..

end Sys2Proof.Laws.OpcodeField
end

