-- ==== Sys2Proof/Laws/Runs.lean ====
section
/-! SUPPORT. What one command of a run can do, and how a run's record grows. -/

namespace Sys2Proof.Machine

@[simp] theorem RunRecord.after_responses (resp : Option Response) (record : RunRecord) :
    (record.after resp).responses = resp.toList ++ record.responses := rfl
@[simp] theorem RunRecord.after_final (resp : Option Response) (record : RunRecord) :
    (record.after resp).final = record.final := rfl
@[simp] theorem RunRecord.after_refusal (resp : Option Response) (record : RunRecord) :
    (record.after resp).refusal = record.refusal := rfl

@[simp] theorem recordCommands_nil (s : State) :
    recordCommands [] s = { responses := [], final := s.block, refusal := none } := rfl

/-- A command that answers comes first in the record of what follows it. -/
theorem recordCommands_cons_next {command : State → Host.Outcome State Fault Refusal} {s t : State}
    (h : command s = .next t) (rest : List (State → Host.Outcome State Fault Refusal)) :
    recordCommands (command :: rest) s = (recordCommands rest t).after t.response := by
  simp [recordCommands, h]

/-- A refused command ends the record. -/
theorem recordCommands_cons_refused {command : State → Host.Outcome State Fault Refusal} {s : State} {r : Refusal}
    (h : command s = .refused r) (rest : List (State → Host.Outcome State Fault Refusal)) :
    recordCommands (command :: rest) s = { responses := [], final := s.block, refusal := some r } := by
  simp [recordCommands, h]

/-- Without a mark the run goes on. -/
theorem State.unlessMarked_none {s : State} (h : s.mark = none) (o : Host.Outcome State Fault Refusal) :
    s.unlessMarked o = o := by
  simp [State.unlessMarked, h]

/-- Everything a command of the abstract model can do in an unmarked state. -/
theorem abstractExec_unmarked {s : State} (hm : s.mark = none) (instr : Instr) :
    (∃ r, outcome instr s.block = .refuse r ∧ abstractExec instr s = .refused (.bySpec r)) ∨
      (∀ r, outcome instr s.block ≠ .refuse r) ∧
        abstractExec instr s = .next (s.complete (outcome instr s.block)) := by
  cases ho : outcome instr s.block with
  | refuse r => exact .inl ⟨r, rfl, by simp [abstractExec, State.unlessMarked_none hm, ho]⟩
  | ret r b => exact .inr ⟨by simp, by simp [abstractExec, State.unlessMarked_none hm, ho]⟩
  | raise e => exact .inr ⟨by simp, by simp [abstractExec, State.unlessMarked_none hm, ho]⟩

/-- Everything a word sent in a run can do: it is refused, by the decoder or by its command, or its command ends and
the run goes on from there. -/
theorem sendWord_cases {s : State} (hm : s.mark = none) (w : Word) :
    (∃ r, sendWord w s = .refused (.bySpec r)) ∨
      ∃ instr, decode w = .ok instr ∧ (∀ r, outcome instr s.block ≠ .refuse r) ∧
        sendWord w s = .next ((s.taken []).complete (outcome instr s.block)) := by
  unfold sendWord
  cases hd : decode w with
  | error r => exact .inl ⟨r, by simp [abstractStep, State.unlessMarked, hm, hd]⟩
  | ok instr =>
    have step_eq : abstractStep { s with host := [.command w] } = abstractExec instr (s.taken []) := by
      simp only [abstractStep, hd]
      exact State.unlessMarked_none (s := { s with host := [.command w] }) hm _
    rw [step_eq]
    rcases abstractExec_unmarked (s := s.taken []) hm instr with ⟨r, -, h⟩ | ⟨hr, h⟩
    · exact .inl ⟨r, h⟩
    · exact .inr ⟨instr, rfl, hr, h⟩

end Sys2Proof.Machine
end

