-- ==== Sys2Proof/Tests/Slice0.lean ====
section
/-! SUPPORT. Tests: expected results are those of spec/95_test_vectors.md and of the rules named; and the states and
operands that meet the hypotheses of the statements. -/

namespace Sys2Proof.Tests

open Sys2Proof.Machine

/-! ## Well-formedness: each check refuses an ill-formed term (R62) -/

theorem test_wf_refuses_negative_index : (Instr.setBit (-1) true).wf = false := by decide
theorem test_wf_refuses_setbit_index_256 : (Instr.setBit 256 true).wf = false := by decide
theorem test_wf_refuses_getbit_index_256 : (Instr.getBit 256 false).wf = false := by decide
theorem test_wf_refuses_nine_elements : (Instr.setByte (List.replicate 9 true) true).wf = false := by decide
theorem test_wf_refuses_selector_256 :
    [Instr.bget 256 false, .bset 256 true, .bflip 256 true, .bchk 256].map Instr.wf =
      [false, false, false, false] := by decide
theorem test_wf_accepts_bounds :
    [Instr.getByte true, .setBit 0 true, .getBit 255 true, .setByte (List.replicate 8 true) true, .chkByte, .recalc,
      .bget 255 true, .bset 0 true, .bflip 255 true, .bchk 255].map Instr.wf = List.replicate 10 true := by decide

/-! ## Decoding: words written field by field from R51, R53 and R54 (RSV1, N, DATA, IDX, RSV0, V, F, OP) -/

/-- The fields of R51 side by side, from bit 31 down to bit 0. -/
def word (rsv1 n : BitVec 4) (dat idx : BitVec 8) (rsv0 : BitVec 2) (v f : BitVec 1) (op : BitVec 4) : Word :=
  rsv1 ++ n ++ dat ++ idx ++ rsv0 ++ v ++ f ++ op

theorem test_decode_getbyte :
    decode (word 0b0000 0b0000 0b00000000 0b00000000 0b00 0b0 0b1 0b0001) = .ok (.getByte true) := by decide
theorem test_decode_setbit :
    decode (word 0b0000 0b0000 0b00000000 0b00000111 0b00 0b1 0b0 0b0010) = .ok (.setBit 7 true) := by decide
theorem test_decode_getbit :
    decode (word 0b0000 0b0000 0b00000000 0b11001000 0b00 0b0 0b1 0b0011) = .ok (.getBit 200 true) := by decide
theorem test_decode_setbyte :
    decode (word 0b0000 0b0011 0b00000011 0b00000000 0b00 0b0 0b1 0b0100) = .ok (.setByte [true, true, false] true) :=
  by decide
theorem test_decode_setbyte_big_endian :
    decode (word 0b0000 0b1000 0b10000001 0b00000000 0b00 0b0 0b0 0b0100) =
      .ok (.setByte [true, false, false, false, false, false, false, true] false) := by decide
theorem test_decode_chkbyte :
    decode (word 0b0000 0b0000 0b00000000 0b00000000 0b00 0b0 0b0 0b0101) = .ok .chkByte := by decide
theorem test_decode_recalc :
    decode (word 0b0000 0b0000 0b00000000 0b00000000 0b00 0b0 0b0 0b0110) = .ok .recalc := by decide
theorem test_decode_bget :
    decode (word 0b0000 0b0000 0b00000000 0b00001000 0b00 0b0 0b0 0b1000) = .ok (.bget 8 false) := by decide
theorem test_decode_bset :
    decode (word 0b0000 0b0000 0b00000000 0b00000100 0b00 0b1 0b0 0b1001) = .ok (.bset 4 true) := by decide
theorem test_decode_bflip :
    decode (word 0b0000 0b0000 0b00000000 0b00000010 0b00 0b0 0b1 0b1010) = .ok (.bflip 2 true) := by decide
theorem test_decode_bchk :
    decode (word 0b0000 0b0000 0b00000000 0b10000000 0b00 0b0 0b0 0b1011) = .ok (.bchk 128) := by decide

/-- V21: the refused words and their reasons, as far as the word alone tells. -/
theorem test_decode_refusals :
    [0x00000000, 0x00000007, 0x0000000C, 0x00000041, 0x10000001, 0x00010001, 0x00000015, 0x00000012, 0x00000023,
      0x00000114, 0x09000014, 0x03080014].map (fun w => (decode (BitVec.ofNat 32 w)).toOption) =
      List.replicate 12 none := by decide
theorem test_decode_reserved_before_length :
    decode 0x09000114 = .error .reservedBits ∧ decode 0x09FF0014 = .error .badLength ∧
      decode 0x03080014 = .error .strayData := by decide
theorem test_table_word_short : decodeTableWord 8 0xFFFFFF05 = some .chkByte := by decide

/-- R64: lines and their words. -/
theorem test_assemble_lines :
    ["getbyte.ovr", "setbit 7, 1", "getbit.ovr 0xC8", "bset 4, true", "bflip 0", "bflip.raw 2", "clrbyte"].map
        (fun l => assembleLine l.toList) =
      [some 0x00000011, some 0x00000722, some 0x0000C813, some 0x00000429, some 0x0000001A, some 0x0000020A,
        some 0x00000014] := by decide
theorem test_assemble_refuses :
    ["setbit 7", "getbyte 0", "bget 256", "nop", "bget 0x"].map (fun l => assembleLine l.toList) =
      List.replicate 5 none := by decide

/-! ## One command on a small state -/

/-- A state right after a reset of a Byte unit at a level. -/
def fresh (level : BitVec 2) : State := State.afterReset { cfgKind := .byteUnit, cfgLevel := some level } []

/-- A state right after a reset of a Bit unit with parity. -/
def freshBit : State := State.afterReset { cfgKind := .bitUnit, cfgPe := some true } []

/-- Level 3 with cell `k` raw-flipped (section 95, P7). -/
def flipped (k : Nat) : State := { fresh 3 with block := (fresh 3).block.modifyCell k (Cell.flip false) }

/-- Level 1 with index 4 written directly (V8). -/
def stale : State := { fresh 1 with block := (fresh 1).block.modifyCell 4 (Cell.set true) }

/-- A Bit unit whose cell is D = 1, S = 0 (V13). -/
def decayed : State := { freshBit with block := freshBit.block.modifyCell 0 (Cell.flip false) }

/-- What a command answers. -/
def answer (instr : Instr) (s : State) : Option Response :=
  match exec instr s with
  | .next t => t.response
  | .fault _ => none
  | .refused _ => none

/-- The data of the cells and of the byte-parity cell after a command. -/
def dataAfter (instr : Instr) (s : State) : List Bool × Option Bool :=
  match exec instr s with
  | .next t => (t.block.rawData, t.block.bpData)
  | .fault _ => ([], none)
  | .refused _ => ([], none)

/-- V8. -/
theorem test_getbyte_detects_direct_write :
    answer (.getByte false) stale = some ⟨1, 0⟩ ∧ answer (.getByte true) stale = some ⟨0, 0x10⟩ := by decide
/-- V11 and V14: level 3, a bit-tier mismatch. -/
theorem test_getbyte_bit_tier :
    answer (.getByte false) (flipped 2) = some ⟨1, 0⟩ ∧ answer (.getByte false) (fresh 3) = some ⟨0, 0⟩ := by decide
/-- V4, V7. -/
theorem test_setbit_recomputes :
    dataAfter (.setBit 7 true) (fresh 1) =
      ([false, false, false, false, false, false, false, true], some false) := by decide
theorem test_setbit_out_of_range :
    answer (.setBit 8 true) (fresh 1) = some ⟨2, 0⟩ ∧ answer (.setBit (-1) true) (fresh 1) = some ⟨2, 0⟩ ∧
      dataAfter (.setBit 9 true) (fresh 1) = (List.replicate 8 false, some true) := by decide
/-- V14. -/
theorem test_getbit_per_cell :
    answer (.getBit 2 false) (flipped 2) = some ⟨1, 0⟩ ∧ answer (.getBit 3 false) (flipped 2) = some ⟨0, 0⟩ ∧
      answer (.getBit 2 true) (flipped 2) = some ⟨0, 1⟩ := by decide
theorem test_getbit_ignores_stale_parity : answer (.getBit 4 false) stale = some ⟨0, 1⟩ := by decide
/-- V18: a non-palindromic sequence in both orders. -/
theorem test_setbyte_little_endian :
    dataAfter (.setByte [true, false, true, true, false] true) (fresh 1) =
      ([false, true, true, false, true, false, false, false], some false) := by decide
theorem test_setbyte_big_endian :
    dataAfter (.setByte [true, false, true, true, false] false) (fresh 1) =
      ([true, false, true, true, false, false, false, false], some false) := by decide
/-- R82's example and V14. -/
theorem test_chkbyte_reports :
    answer .chkByte (fresh 1) = some ⟨0, 1⟩ ∧ answer .chkByte stale = some ⟨0, 0⟩ ∧
      answer .chkByte (flipped 2) = some ⟨1, 0⟩ := by decide
theorem test_chkbyte_refused : answer .chkByte (fresh 2) = some ⟨3, 0⟩ := by decide
/-- V20. -/
theorem test_recalc_launders :
    dataAfter .recalc stale = ([false, false, false, false, true, false, false, false], some false) := by decide
theorem test_recalc_refused : answer .recalc (fresh 0) = some ⟨3, 0⟩ ∧ answer .recalc freshBit = some ⟨3, 0⟩ := by
  decide
/-- V13. -/
theorem test_bget_mismatch :
    answer (.bget 0 false) decayed = some ⟨1, 0⟩ ∧ answer (.bget 0 true) decayed = some ⟨0, 1⟩ := by decide
/-- V9, V11, V21. -/
theorem test_bget_parity_cell :
    answer (.bget 8 false) (fresh 1) = some ⟨0, 1⟩ ∧ answer (.bget 8 false) (fresh 2) = some ⟨3, 0⟩ ∧
      answer (.bget 9 false) (fresh 1) = some ⟨3, 0⟩ := by decide
/-- V13. -/
theorem test_bset_syncs :
    (match exec (.bset 0 false) decayed with | .next t => t.block.cells | _ => []) = [⟨false, some false⟩] := by decide
/-- V8: no recompute. -/
theorem test_bset_keeps_parity_cell :
    dataAfter (.bset 4 true) (fresh 1) = ([false, false, false, false, true, false, false, false], some true) := by
  decide
/-- V13: a clean flip keeps the mismatch. -/
theorem test_bflip_clean :
    (match exec (.bflip 0 true) decayed with | .next t => t.block.cells | _ => []) = [⟨false, some true⟩] := by decide
/-- P4. -/
theorem test_bflip_parity_cell : dataAfter (.bflip 8 true) (fresh 1) = (List.replicate 8 false, some false) := by
  decide
/-- V13, V21. -/
theorem test_bchk :
    answer (.bchk 0) freshBit = some ⟨0, 1⟩ ∧ answer (.bchk 0) decayed = some ⟨0, 0⟩ ∧
      answer (.bchk 8) (fresh 3) = some ⟨3, 0⟩ := by decide
theorem test_bchk_refused : answer (.bchk 0) (fresh 1) = some ⟨3, 0⟩ ∧ answer (.bchk 1) freshBit = some ⟨3, 0⟩ := by
  decide

/-! ## The hypotheses of the statements can be met -/

theorem witness_DecodeOfEncode :
    [Instr.setBit 255 true, .getBit 0 true, .setByte (List.replicate 8 true) false, .bchk 255].all Instr.wf = true := by
  decide
theorem witness_EncodeOfDecode :
    decode 0x08FF0014 = .ok (.setByte (List.replicate 8 true) true) ∧ decode 0x0000FF22 = .ok (.setBit 255 true) := by
  decide
theorem witness_IllegalOpcodeWords :
    decode 0x0000000F = .error .illegalOpcode ∧ (opField 0x0000000F).toNat ∈ [0x0, 0x7, 0xC, 0xD, 0xE, 0xF] := by
  decide
theorem witness_ReservedBitsWords :
    Op.ofCode (opField 0x80000001) = some .getByte ∧ mustBeZero .getByte 31 = true ∧
      (0x80000001 : Word).getLsbD 31 = true ∧ decode 0x80000001 = .error .reservedBits := by decide
/-- A bit that must be zero lies in the word. -/
theorem mustBeZero_lt {op : Op} {k : Nat} (h : mustBeZero op k = true) : k < 32 := by
  simp [mustBeZero] at h; omega
/-- A SETBYTE word none of whose must-be-zero bits is 1. -/
theorem noReserved {w : Word} (h : w &&& Op.setByte.mask = Op.setByte.pattern) (k : Nat)
    (hk : mustBeZero .setByte k = true) : w.getLsbD k = false := by
  have bit : (w.getLsbD k && Op.setByte.mask.getLsbD k) = Op.setByte.pattern.getLsbD k := by
    rw [← h, BitVec.getLsbD_and]
  have table : ∀ k < 32, mustBeZero .setByte k = true →
      Op.setByte.mask.getLsbD k = true ∧ Op.setByte.pattern.getLsbD k = false := by decide
  obtain ⟨hm, hp⟩ := table k (mustBeZero_lt hk) hk
  simpa [hm, hp] using bit
theorem witness_SetByteWords :
    (opField 0x09000014 = 0x4 ∧ ∀ k, mustBeZero .setByte k = true → (0x09000014 : Word).getLsbD k = false) ∧
      (opField 0x07800014 = 0x4 ∧ ∀ k, mustBeZero .setByte k = true → (0x07800014 : Word).getLsbD k = false) ∧
      (opField 0x00000004 = 0x4 ∧ ∀ k, mustBeZero .setByte k = true → (0x00000004 : Word).getLsbD k = false) :=
  ⟨⟨by decide, noReserved (by decide)⟩, ⟨by decide, noReserved (by decide)⟩, by decide, noReserved (by decide)⟩
theorem witness_SetByteWords_clauses :
    decode 0x09000014 = .error .badLength ∧ decode 0x07800014 = .error .strayData ∧
      decode 0x00000004 = .ok (.setByte [] false) ∧
      decode 0x08810014 = .ok (.setByte [true, false, false, false, false, false, false, true] true) := by decide
theorem witness_RowsDisjoint : (0x00000722 : Word) &&& Op.setBit.mask = Op.setBit.pattern := by decide
theorem witness_SyntaxTableWords :
    encode (.bchk 255) = 0x0000FF0B ∧ 255 < 256 ∧ (List.replicate 8 true).length ≤ 8 ∧
      encode (.setByte (List.replicate 8 true) true) = 0x08FF0014 := by decide
theorem witness_ParseOfWrite :
    (Instr.setByte [true, false] true).wf = true ∧
      parseLine (writeLine (.setByte [true, false] true)) = some (.setByte [true, false] true) := by decide
theorem witness_ResetCellValues :
    (ResetInputs.mk .bitUnit (some true) none).cfgKind = .bitUnit ∧
      (ResetInputs.mk .byteUnit none (some 3)).cfgKind = .byteUnit := by decide
theorem witness_LevelOutsideRangeRefused :
    levelOfInt 3 = some 3 ∧ levelOfInt 0 = some 0 ∧ levelOfInt 4 = none ∧ levelOfInt (-1) = none := by decide
/-- A state about to run a word. -/
def about (s : State) (w : Word) : State := { s with host := [.command w] }
theorem witness_ConfigurationFixed :
    (∀ inp, (about (fresh 1) 0x722).host.head? ≠ some (.reset inp)) ∧ ∃ t, step (about (fresh 1) 0x722) = .next t :=
  ⟨fun _ => by simp [about], _, rfl⟩
theorem witness_SelectorSpaceIsPresence :
    (fresh 3).block.wf = true ∧ (fresh 3).block.inSpace 8 = true ∧ (fresh 2).block.inSpace 8 = false ∧
      (fresh 3).block.cell? 8 = some ⟨true, none⟩ ∧ (fresh 3).block.cell? 7 = some ⟨false, some false⟩ ∧
      freshBit.block.wf = true ∧ freshBit.block.cell? 0 = some ⟨false, some false⟩ := by decide
theorem witness_StepRunsDecodedCommand :
    (about (fresh 1) 0x722).host = .command 0x722 :: [] ∧ decode 0x722 = .ok (.setBit 7 true) := by decide
theorem witness_StepRefusesUndecodableWord :
    (about (fresh 1) 0x41).host = .command 0x41 :: [] ∧ decode 0x41 = .error .reservedBits := by decide
theorem witness_StepIdleKeepsBlock : (fresh 1).host = [] := by decide
theorem witness_StepKeepsStorageForm : (about (flipped 2) 0x722).Inv ∧ ∃ t, step (about (flipped 2) 0x722) = .next t :=
  ⟨by decide, _, rfl⟩
/-- P3's last command in small: the run ends at the refused word and the word after it is not run. -/
theorem witness_RunEndsAtFirstRefusal :
    runOfWords { cfgKind := .bitUnit } [0x29, 0x1, 0x9] =
        { responses := [⟨0, 0⟩], final := ⟨⟨.bitUnit, false, 1⟩, [⟨true, none⟩], none⟩,
          refusal := some (.bySpec .wrongUnit) } ∧
      (runOfWords { cfgKind := .bitUnit } [0x29]).refusal = none := by decide
/-- V16: a run of abstract commands may hold one that has no word. -/
theorem test_run_of_commands :
    (runOfCommands { cfgKind := .byteUnit } [.setBit (-1) true, .bget 8 false]).responses = [⟨2, 0⟩, ⟨0, 1⟩] := by
  decide
theorem witness_OneResponsePerCommand : [(0x722 : Word), 0x1][1]? = some 0x1 := by decide
theorem witness_ErrorsWriteNothing :
    answer (.setBit 8 true) (fresh 1) = some ⟨2, 0⟩ ∧ (2 : BitVec 2) ≠ 0 ∧
      answer (.getByte false) stale = some ⟨1, 0⟩ ∧ answer .recalc (fresh 0) = some ⟨3, 0⟩ := by decide
theorem witness_ReadsWriteNothing : readOnly (.getByte true) = true ∧ ∃ t, exec (.getByte true) stale = .next t :=
  ⟨by decide, _, rfl⟩
theorem witness_WritesIdempotent :
    readOnly (.setBit 7 true) = false ∧ (∀ c honor, Instr.setBit 7 true ≠ .bflip c honor) ∧
      ∃ t u, exec (.setBit 7 true) (flipped 2) = .next t ∧ exec (.setBit 7 true) t = .next u :=
  ⟨by decide, fun _ _ => by simp, _, _, rfl, rfl⟩
theorem witness_MismatchRaisers :
    ∃ t r, exec (.bget 0 false) decayed = .next t ∧ t.response = some r ∧ r.status = 1 :=
  ⟨_, _, rfl, rfl, rfl⟩
theorem witness_WrongUnitRefusals :
    (Instr.setBit 8 true).wf = true ∧ freshBit.block.cfg.kind = .bitUnit ∧ byteOnly (.setBit 8 true) = true ∧
      byteOnly (.bchk 1) = false ∧ (Instr.bchk 1).wf = true := by decide
theorem witness_CapabilityRefusals :
    (fresh 2).Inv ∧ (fresh 2).block.cfg.kind = .byteUnit ∧ (fresh 2).block.cfg.byteParity = false ∧
      outcome .recalc (fresh 2).block = .refuse .capabilityAbsent ∧
      (fresh 3).Inv ∧ (fresh 3).block.inSpace 8 = true ∧ (fresh 3).block.cell? 8 = some ⟨true, none⟩ ∧
      outcome (.bchk 8) (fresh 3).block = .refuse .capabilityAbsent ∧
      (fresh 3).block.inSpace 9 = false ∧ outcome (.bchk 9) (fresh 3).block = .refuse .badSelector ∧
      freshBit.Inv ∧ freshBit.block.inSpace 1 = false := by decide
theorem witness_FirstFailedCheckReported :
    8 < (List.replicate 9 true).length ∧ freshBit.block.inSpace 1 = false ∧ freshBit.block.cfg.kind = .bitUnit ∧
      (fresh 3).block.cfg.kind = .byteUnit ∧ ((-1 : Int) < 0 ∨ 7 < (-1 : Int)) ∧ ((8 : Int) < 0 ∨ 7 < (8 : Int)) := by
  decide
theorem witness_IndexOutOfRangeCauses :
    (fresh 3).Inv ∧ (fresh 3).block.cfg.kind = .byteUnit ∧ answer (.getBit 8 true) (fresh 3) = some ⟨2, 0⟩ ∧
      answer (.getBit 7 true) (fresh 3) = some ⟨0, 0⟩ ∧ (fresh 2).block.inSpace 8 = false ∧
      answer (.bget 8 true) (fresh 2) = some ⟨3, 0⟩ := by decide
theorem witness_MarkIsSticky :
    ∃ t u, exec .recalc (fresh 0) = .next t ∧ (fresh 0).mark = none ∧ t.mark = some .capabilityAbsent ∧
      exec (.bget 9 true) t = .next u ∧ u.mark = some .capabilityAbsent :=
  ⟨_, _, rfl, rfl, rfl, rfl, rfl⟩
theorem witness_AbstractRefusalIsStatusThree :
    (fresh 0).mark = none ∧ (∃ t, exec .recalc (fresh 0) = .next t) ∧ ∃ t, exec .recalc (fresh 1) = .next t :=
  ⟨rfl, ⟨_, rfl⟩, _, rfl⟩
theorem witness_WordRunRefinesAbstractRun :
    (about (fresh 1) 0x722).mark = none ∧ commandsOnly (about (fresh 1) 0x722).host = true ∧
      (∃ t, Sys2Proof.core.run 1 (about (fresh 1) 0x722) = .next t ∧ t.mark = none) ∧
      ∃ t, Sys2Proof.core.run 1 (about (fresh 1) 0xB) = .next t ∧ t.mark = some .capabilityAbsent :=
  ⟨rfl, rfl, ⟨_, rfl, rfl⟩, _, rfl, rfl⟩
theorem witness_BgetCheckedRead :
    decayed.block.inSpace 0 = true ∧ decayed.block.cell? 0 = some ⟨true, some false⟩ ∧
      (fresh 3).block.inSpace 7 = true ∧ (fresh 3).block.cell? 7 = some ⟨false, some false⟩ ∧
      (fresh 1).block.inSpace 8 = true ∧ (fresh 1).block.cell? 8 = some ⟨true, none⟩ := by decide
theorem witness_BsetTrustedWrite :
    (flipped 2).block.inSpace 2 = true ∧ (flipped 2).block.cell? 2 = some ⟨true, some false⟩ ∧
      (fresh 1).block.inSpace 8 = true ∧ (fresh 1).block.cell? 8 = some ⟨true, none⟩ := by decide
theorem witness_BflipInverts :
    (flipped 7).block.inSpace 7 = true ∧ (flipped 7).block.cell? 7 = some ⟨true, some false⟩ ∧
      (fresh 1).block.inSpace 0 = true ∧ (fresh 1).block.cell? 0 = some ⟨false, none⟩ := by decide
theorem witness_BchkReportsAgreement :
    decayed.block.inSpace 0 = true ∧ decayed.block.cell? 0 = some { data := true, shadow := some false } := by decide
theorem witness_BsetBgetRoundTrip :
    (flipped 7).block.inSpace 7 = true ∧ (flipped 7).block.cell? 7 = some ⟨true, some false⟩ := by decide
theorem witness_RawFlipDetected :
    decayed.block.inSpace 0 = true ∧ decayed.block.cell? 0 = some ⟨true, some false⟩ ∧
      (Cell.mk true (some false)).hasShadow = true := by decide
theorem witness_FlipTwiceRestores :
    ∃ t u, exec (.bflip 8 true) (fresh 3) = .next t ∧ exec (.bflip 8 true) t = .next u :=
  ⟨_, _, rfl, rfl⟩
theorem witness_BitTierMismatchPersists :
    (flipped 2).block.cfg.kind = .byteUnit ∧ 2 < 8 ∧ (flipped 2).block.cell? 2 = some ⟨true, some false⟩ ∧
      (Cell.mk true (some false)).synced = false ∧ (∃ t, exec (.bflip 2 true) (flipped 2) = .next t) ∧
      Instr.bflip 2 true ≠ .bflip 2 false :=
  ⟨rfl, by decide, rfl, rfl, ⟨_, rfl⟩, by decide⟩
theorem witness_PlacementOfElements : (List.replicate 8 true).length ≤ 8 ∧ ([] : List Bool).length ≤ 8 := by decide
theorem witness_GetByteClosedForm :
    (flipped 2).Inv ∧ (flipped 2).block.cfg.kind = .byteUnit ∧ stale.Inv ∧ stale.block.cfg.kind = .byteUnit ∧
      (fresh 0).Inv ∧ (fresh 0).block.cfg.kind = .byteUnit := by decide
theorem witness_GetBitCheckedRead :
    (flipped 7).block.cfg.kind = .byteUnit ∧ 7 < 8 ∧ (flipped 7).block.cell? 7 = some ⟨true, some false⟩ ∧
      (flipped 7).block.cell? 0 = some ⟨false, some false⟩ := by decide
theorem witness_SetBitWritesAndRecomputes :
    (flipped 2).Inv ∧ (flipped 2).block.cfg.kind = .byteUnit ∧ 7 < 8 ∧ (fresh 0).Inv ∧
      (fresh 0).block.cfg.kind = .byteUnit := by decide
theorem witness_SetByteWritesAllCells :
    (flipped 2).Inv ∧ (flipped 2).block.cfg.kind = .byteUnit ∧ (List.replicate 8 true).length ≤ 8 := by decide
theorem witness_ChkByteChecksBothTiers :
    (flipped 2).Inv ∧ (flipped 2).block.cfg.byteParity = true ∧
      (∃ k x sh, k < 8 ∧ (flipped 2).block.cell? k = some x ∧ x.shadow = some sh ∧ sh ≠ x.data) ∧
      stale.Inv ∧ stale.block.cfg.byteParity = true :=
  ⟨by decide, by decide, ⟨2, ⟨true, some false⟩, false, by decide⟩, by decide, by decide⟩
/-- At level 1 no cell has a shadow: the clause of CHKBYTE's statement that compares no shadow is met. -/
theorem witness_ChkByteChecksBothTiers_clean :
    ∀ k x sh, k < 8 → stale.block.cell? k = some x → x.shadow = some sh → sh = x.data := by
  have table : ∀ k < 8, ((stale.block.cell? k).bind Cell.shadow) = none := by decide
  intro k x sh hk hx hs
  have := table k hk
  rw [hx, Option.bind_some, hs] at this
  cases this
theorem witness_RecalcSetsByteParity : stale.Inv ∧ stale.block.cfg.byteParity = true := by decide
theorem witness_GetByteAgreesWithGetBit :
    ∃ t u rd rd', 7 < 8 ∧ exec (.getByte true) (flipped 7) = .next t ∧ exec (.getBit 7 true) (flipped 7) = .next u ∧
      t.response = some { status := 0, rdata := rd } ∧ u.response = some { status := 0, rdata := rd' } :=
  ⟨_, _, _, _, by decide, rfl, rfl, rfl, rfl⟩
theorem witness_SetByteGetByteRoundTrip :
    (flipped 2).Inv ∧ (flipped 2).block.cfg.kind = .byteUnit ∧ [true, false].length ≤ 8 := by decide
theorem witness_SetByteIsEightSetBits :
    (flipped 2).Inv ∧ (flipped 2).Unrefused ∧ (flipped 2).block.cfg.kind = .byteUnit ∧
      (List.replicate 8 true).length ≤ 8 := by decide
theorem witness_ByteCommandsKeepConsistency :
    (fresh 3).block.Sound ∧ byteOnly (.setBit 7 true) = true ∧ ∃ t, exec (.setBit 7 true) (fresh 3) = .next t :=
  ⟨by decide, by decide, _, rfl⟩
theorem witness_NoFalseAlarm :
    (ResetInputs.mk .byteUnit none (some 3)).cfgKind = .byteUnit ∧
      (∀ instr ∈ [Instr.setBit 7 true, .getBit 9 false], byteOnly instr = true) ∧
      ∃ t, abstractRun [.setBit 7 true, .getBit 9 false]
        (State.afterReset (ResetInputs.mk .byteUnit none (some 3)) []) = .next t :=
  ⟨by decide, by decide, _, rfl⟩
theorem witness_OddCorruptionDetected :
    (fresh 1).block.Sound ∧ (fresh 1).Unrefused ∧
      (∀ instr ∈ [Instr.bflip 2 true, .bflip 8 true, .bset 5 true], byteOnly instr = false) ∧
      ∃ t, abstractRun [.bflip 2 true, .bflip 8 true, .bset 5 true] (fresh 1) = .next t ∧
        changedBits (fresh 1).block t.block = 3 :=
  ⟨by decide, by decide, by decide, _, rfl, by decide⟩
/-- The two causes of level 3 apart: a clean flip changes one bit and no shadow differs; two raw flips change two. -/
theorem witness_OddCorruptionDetected_levels :
    (fresh 3).block.Sound ∧ (fresh 3).Unrefused ∧ (fresh 3).block.cfg.byteParity = true ∧
      (∃ t, abstractRun [.bflip 7 true] (fresh 3) = .next t ∧ changedBits (fresh 3).block t.block = 1 ∧
        t.block.cell? 7 = some ⟨true, some true⟩) ∧
      ∃ t, abstractRun [.bflip 0 false, .bflip 7 false] (fresh 3) = .next t ∧
        changedBits (fresh 3).block t.block = 2 ∧ t.block.cell? 7 = some ⟨true, some false⟩ :=
  ⟨by decide, by decide, by decide, ⟨_, rfl, by decide, by decide⟩, _, rfl, by decide, by decide⟩
theorem witness_RecomputeHidesCorruption :
    stale.Inv ∧ stale.block.cfg.kind = .byteUnit ∧ stale.block.cfg.parityLevel = 1 ∧
      (∃ t, exec .recalc stale = .next t) ∧ ∃ t, exec (.setBit 7 false) stale = .next t :=
  ⟨by decide, by decide, by decide, ⟨_, rfl⟩, _, rfl⟩
theorem witness_OverrideReadsSeeDataOnly :
    (flipped 2).Inv ∧ (flipped 2).block.cfg = (fresh 3).block.cfg ∧
      (flipped 2).block.bpData = (fresh 3).block.bpData ∧
      (∃ t, exec (.bset 2 true) (fresh 3) = .next t ∧ t.Inv ∧ t.block.rawData = (flipped 2).block.rawData ∧
        t.block ≠ (flipped 2).block) :=
  ⟨by decide, by decide, by decide, _, rfl, by decide, by decide, by decide⟩

end Sys2Proof.Tests
end

section
/-! PROOFS of the family spec/00_scope.md: how commands end (R11). -/

namespace Sys2Proof.Machine

/-- However a command ends, the response port then shows a response (R60, R102). -/
theorem State.complete_answers (s : State) (o : CmdOut) : ∃ r, (s.complete o).response = some r := by
  cases o with
  | ret res b => exact ⟨okResponse res.rdata, rfl⟩
  | raise e => exact ⟨e.status.bare, rfl⟩
  | refuse why => exact ⟨Status.refused.bare, rfl⟩

/-- Only `return` writes the block or carries a result, and it answers status 0: the other two ends of a command
answer a bare status (R60, R97, R99). -/
theorem State.complete_writes_nothing {s : State} {o : CmdOut} {r : Response}
    (hr : (s.complete o).response = some r) (hne : r.status ≠ 0) :
    r.rdata = 0 ∧ (s.complete o).block = s.block := by
  cases o with
  | ret res b =>
    obtain rfl : okResponse res.rdata = r := Option.some.inj hr
    exact absurd rfl hne
  | raise e =>
    obtain rfl : e.status.bare = r := Option.some.inj hr
    exact ⟨rfl, rfl⟩
  | refuse why =>
    obtain rfl : Status.refused.bare = r := Option.some.inj hr
    exact ⟨rfl, rfl⟩

/-- Settles O26: every command ends as its outcome says, and no outcome but `return` writes. -/
theorem errorsWriteNothing : Obligations.ErrorsWriteNothing := by
  intro instr s
  obtain ⟨r, hr⟩ := s.complete_answers (outcome instr s.block)
  exact ⟨_, r, exec_eq_complete instr s, hr, s.complete_host _, State.complete_writes_nothing hr⟩

end Sys2Proof.Machine
end

section
/-! PROOFS of the family spec/10_state.md: the configuration, the storage it calls for, and reset (R14 to R31). -/

namespace Sys2Proof.Machine

/-! ## The configuration and what it calls for -/

/-- Settles O11: the two bits of the level, at each of its four values. -/
theorem muxDecodesLevel : Obligations.MuxDecodesLevel := by
  unfold Obligations.MuxDecodesLevel
  decide

/-- A Bit unit never has a byte-parity cell (R17). -/
theorem Cfg.byteParity_bit {cfg : Cfg} (h : cfg.kind = .bitUnit) : cfg.byteParity = false := by
  simp [Cfg.byteParity, h]

/-- A Byte unit has a byte-parity cell at the odd levels (R15, R18). -/
theorem Cfg.byteParity_byte {cfg : Cfg} (h : cfg.kind = .byteUnit) :
    cfg.byteParity = true ↔ cfg.parityLevel.toNat % 2 = 1 := by
  simp [Cfg.byteParity, h, (muxDecodesLevel cfg.parityLevel).1]

theorem Cfg.shadowed_bit {cfg : Cfg} (h : cfg.kind = .bitUnit) : cfg.shadowed = cfg.parityEnabled := by
  simp [Cfg.shadowed, h]

/-- A Byte unit's data cells have shadows from level 2 on (R15, R18). -/
theorem Cfg.shadowed_byte {cfg : Cfg} (h : cfg.kind = .byteUnit) :
    cfg.shadowed = true ↔ 2 ≤ cfg.parityLevel.toNat := by
  simp [Cfg.shadowed, Cfg.bitParity, h, (muxDecodesLevel cfg.parityLevel).2]

theorem Cfg.cellCount_bit {cfg : Cfg} (h : cfg.kind = .bitUnit) : cfg.cellCount = 1 := by
  simp [Cfg.cellCount, h]

theorem Cfg.cellCount_byte {cfg : Cfg} (h : cfg.kind = .byteUnit) : cfg.cellCount = 8 := by
  simp [Cfg.cellCount, h, Config.nbits]

/-- Selector 8 is the byte-parity cell. -/
@[simp] theorem Block.cell?_bpSelector (b : Block) : b.cell? 8 = b.bp := rfl

/-- Every other selector is a data cell's. -/
theorem Block.cell?_data {c : Nat} (b : Block) (h : c ≠ 8) : b.cell? c = b.cells[c]? := if_neg h

/-- The selector space of a Bit unit (R35). -/
theorem Block.inSpace_bit {b : Block} (h : b.cfg.kind = .bitUnit) (c : Nat) : b.inSpace c = true ↔ c = 0 := by
  simp [Block.inSpace, h]

/-- The selector space of a Byte unit (R35). -/
theorem Block.inSpace_byte {b : Block} (h : b.cfg.kind = .byteUnit) (c : Nat) :
    b.inSpace c = true ↔ c < 8 ∨ c = 8 ∧ b.cfg.byteParity = true := by
  simp only [Block.inSpace, h, Bool.or_eq_true, Bool.and_eq_true, decide_eq_true_eq, beq_iff_eq]
  rfl

/-- In form, the byte-parity cell is there exactly when `byteParity` is. -/
theorem Block.bp_isSome_of_wf {b : Block} (h : b.wf = true) : b.bp.isSome = b.cfg.byteParity := by
  obtain ⟨-, -, ⟨hn, hp⟩ | ⟨x, hx, hp, -⟩⟩ := b.wf_iff.mp h
  · simp [hn, hp]
  · simp [hx, hp]

/-- In form, a selector's cell is there exactly when the selector counts one of the unit's data cells, or names the
byte-parity cell and there is one. -/
theorem Block.cell?_isSome_of_wf {b : Block} (h : b.wf = true) (c : Nat) :
    (b.cell? c).isSome = true ↔ c < b.cfg.cellCount ∨ c = 8 ∧ b.cfg.byteParity = true := by
  obtain ⟨hl, -, -⟩ := b.wf_iff.mp h
  by_cases hc : c = 8
  · have hcount : b.cfg.cellCount ≤ 8 := by
      cases hk : b.cfg.kind
      · simp [Cfg.cellCount_bit hk]
      · simp [Cfg.cellCount_byte hk]
    subst hc
    simp [Block.bp_isSome_of_wf h, hcount]
  · simp [Block.cell?_data b hc, hc, hl]

/-- In form, whether a present cell has a shadow: a data cell as the configuration says, the byte-parity cell never
(R19, R20). -/
theorem Block.hasShadow_of_wf {b : Block} (h : b.wf = true) {c : Nat} {x : Cell} (hx : b.cell? c = some x) :
    x.hasShadow = true ↔ c < b.cfg.cellCount ∧ c ≠ 8 ∧ b.cfg.shadowed = true := by
  obtain ⟨hl, hs, hb⟩ := b.wf_iff.mp h
  by_cases hc : c = 8
  · subst hc
    rw [Block.cell?_bpSelector] at hx
    rcases hb with ⟨hn, -⟩ | ⟨y, hy, -, hys⟩
    · simp [hn] at hx
    · obtain rfl : y = x := by simpa [hy] using hx
      simp [hys]
  · rw [Block.cell?_data b hc] at hx
    have hlt : c < b.cfg.cellCount := hl ▸ (List.getElem?_eq_some_iff.mp hx).1
    simp [hs x (List.mem_of_getElem? hx), hlt, hc]

/-- Settles O18: the two kinds of unit, each with the cells its form gives it. -/
theorem selectorSpaceIsPresence : Obligations.SelectorSpaceIsPresence := by
  intro b c h
  rw [Block.cell?_isSome_of_wf h]
  cases hk : b.cfg.kind with
  | bitUnit =>
    refine ⟨by simp [Block.inSpace_bit hk, Cfg.cellCount_bit hk, Cfg.byteParity_bit hk], fun x hx => ?_⟩
    have present := (Block.cell?_isSome_of_wf h c).mp (by simp [hx])
    obtain rfl : c = 0 := by simpa [Cfg.cellCount_bit hk, Cfg.byteParity_bit hk] using present
    simp [Block.hasShadow_of_wf h hx, Cfg.cellCount_bit hk, Cfg.shadowed_bit hk]
  | byteUnit =>
    refine ⟨by simp [Block.inSpace_byte hk, Cfg.cellCount_byte hk], fun x hx => ?_⟩
    simp only [Block.hasShadow_of_wf h hx, Cfg.cellCount_byte hk, Cfg.shadowed_byte hk, reduceCtorEq, true_and, false_and,
      false_or]
    omega

/-! ## Reset -/

@[simp] theorem ResetInputs.latch_kind (inp : ResetInputs) : inp.latch.kind = inp.cfgKind := rfl
@[simp] theorem ResetInputs.latch_parityEnabled (inp : ResetInputs) :
    inp.latch.parityEnabled = inp.cfgPe.getD false := rfl
@[simp] theorem ResetInputs.latch_parityLevel (inp : ResetInputs) :
    inp.latch.parityLevel = inp.cfgLevel.getD 1 := rfl

@[simp] theorem Block.construct_cfg (cfg : Cfg) : (Block.construct cfg).cfg = cfg := rfl
@[simp] theorem Block.construct_cells (cfg : Cfg) :
    (Block.construct cfg).cells = List.replicate cfg.cellCount (Cell.fresh cfg.shadowed) := rfl
@[simp] theorem Block.construct_bp (cfg : Cfg) :
    (Block.construct cfg).bp = if cfg.byteParity then some { data := true, shadow := none } else none := rfl

@[simp] theorem Cell.synced_fresh (pe : Bool) : (Cell.fresh pe).synced = true := by
  cases pe <;> rfl
@[simp] theorem Cell.synced_of_no_shadow (v : Bool) : (Cell.mk v none).synced = true := rfl

/-- No `true` value is counted among `false` ones. -/
@[simp] theorem popcount_replicate_false (n : Nat) : popcount (List.replicate n false) = 0 := by
  induction n with
  | zero => rfl
  | succ n ih => simp [List.replicate_succ, popcount, ih]

/-- Construction leaves every data value `false` (R28). -/
@[simp] theorem Block.construct_rawData (cfg : Cfg) :
    (Block.construct cfg).rawData = List.replicate cfg.cellCount false := by
  simp [Block.rawData, Cell.fresh]

/-- Construction makes a consistent block: shadows equal their data, and the byte-parity cell holds the even parity of
no `true` value (R30, R31). -/
theorem Block.consistent_construct (cfg : Cfg) : (Block.construct cfg).consistent = true := by
  have pop : (Block.construct cfg).popRaw = 0 := by simp [Block.popRaw]
  cases h : cfg.byteParity <;> simp [Block.consistent, pop, h, Block.bpData, isEven]

/-- Settles O12: a reset constructs the block anew, whatever the state was. -/
theorem resetCellValues : Obligations.ResetCellValues := by
  intro s inp rest
  refine ⟨_, step_reset rfl, fun hk => ?_, fun hk => ?_⟩
  · have hk : inp.latch.kind = .bitUnit := hk
    simp [Cfg.cellCount_bit hk, Cfg.shadowed_bit hk, Cfg.byteParity_bit hk, Cell.fresh]
  · have hk : inp.latch.kind = .byteUnit := hk
    simp [Cfg.cellCount_byte hk, Cfg.shadowed_byte hk, Cfg.byteParity_byte hk, Cell.fresh]

/-- Settles O13: the state after a reset, field by field. -/
theorem resetLatchesInputs : Obligations.ResetLatchesInputs :=
  fun _ _ _ => ⟨_, step_reset rfl, rfl, rfl, rfl, rfl⟩

/-- Settles O15: a reset state's block is a constructed one. -/
theorem resetStateConsistent : Obligations.ResetStateConsistent :=
  fun inp _ => ⟨Block.wf_construct inp.latch, Block.consistent_construct inp.latch⟩

/-! ## What a command and a step can do to the block -/

theorem Block.requireByte_eq_ret {b b' : Block} {o : CmdOut} {r : Result} :
    b.requireByte o = .ret r b' ↔ b.cfg.kind = .byteUnit ∧ o = .ret r b' := by
  unfold Block.requireByte; split <;> simp_all

theorem Block.requireByteParity_eq_ret {b b' : Block} {o : CmdOut} {r : Result} :
    b.requireByteParity o = .ret r b' ↔ b.cfg.byteParity = true ∧ o = .ret r b' := by
  unfold Block.requireByteParity; split <;> simp_all

theorem requireIndex_eq_ret {idx : Int} {b' : Block} {o : CmdOut} {r : Result} :
    requireIndex idx o = .ret r b' ↔ indexInRange idx = true ∧ o = .ret r b' := by
  unfold requireIndex; split <;> simp_all

/-- A checked read that completes leaves the block as it is. -/
theorem Block.eq_of_returnBit_eq_ret {b b' : Block} {e : Except CmdError Bool} {r : Result}
    (h : b.returnBit e = .ret r b') : b' = b := by
  cases e with
  | error e => cases h
  | ok v => cases h; rfl

/-- GETBYTE that completes leaves the block as it is. -/
theorem Block.eq_of_cmdGetByte_eq_ret {b b' : Block} {ovr : Bool} {r : Result}
    (h : cmdGetByte ovr b = .ret r b') : b' = b := by
  obtain ⟨-, h⟩ := Block.requireByte_eq_ret.mp h
  split at h
  · cases h
  · cases h
  · unfold Block.returnByte at h
    split at h
    · cases h
    · cases h; rfl

/-- Everything a command that completes can do to the block: nothing, one trusted write or flip of a cell, or, on a Byte
unit, a write of one or of all data cells and the recompute after it (R26, R27). -/
theorem outcome_ret_cases {instr : Instr} {b b' : Block} {r : Result} (h : outcome instr b = .ret r b') :
    b' = b ∨ (∃ c v, b' = b.modifyCell c (Cell.set v)) ∨ (∃ c honor, b' = b.modifyCell c (Cell.flip honor)) ∨
      b.cfg.kind = .byteUnit ∧
        ((∃ c v, b' = (b.modifyCell c (Cell.set v)).recalcIfEnabled) ∨
          ∃ vals le, b' = (b.setAll (place vals le)).recalcIfEnabled) := by
  cases instr with
  | getByte ovr => exact .inl (Block.eq_of_cmdGetByte_eq_ret h)
  | setBit idx v =>
    obtain ⟨hk, h⟩ := Block.requireByte_eq_ret.mp h
    obtain ⟨-, h⟩ := requireIndex_eq_ret.mp h
    cases h
    exact .inr (.inr (.inr ⟨hk, .inl ⟨_, v, rfl⟩⟩))
  | getBit idx ovr =>
    obtain ⟨-, h⟩ := Block.requireByte_eq_ret.mp h
    obtain ⟨-, h⟩ := requireIndex_eq_ret.mp h
    split at h
    · cases h
    · exact .inl (Block.eq_of_returnBit_eq_ret h)
  | setByte vals le =>
    simp only [outcome, cmdSetByte] at h
    split at h
    · cases h
    · obtain ⟨hk, h⟩ := Block.requireByte_eq_ret.mp h
      cases h
      exact .inr (.inr (.inr ⟨hk, .inr ⟨vals, le, rfl⟩⟩))
  | chkByte =>
    obtain ⟨-, h⟩ := Block.requireByte_eq_ret.mp h
    obtain ⟨-, h⟩ := Block.requireByteParity_eq_ret.mp h
    exact .inl (Block.eq_of_returnBit_eq_ret h)
  | recalc =>
    obtain ⟨-, h⟩ := Block.requireByte_eq_ret.mp h
    obtain ⟨-, h⟩ := Block.requireByteParity_eq_ret.mp h
    cases h
    exact .inr (.inl ⟨Config.bpSelector, _, rfl⟩)
  | bget c ovr =>
    simp only [outcome, cmdBget] at h
    split at h
    · cases h
    · exact .inl (Block.eq_of_returnBit_eq_ret h)
  | bset c v =>
    simp only [outcome, cmdBset] at h
    split at h
    · cases h
    · cases h; exact .inr (.inl ⟨c, v, rfl⟩)
  | bflip c honor =>
    simp only [outcome, cmdBflip] at h
    split at h
    · cases h
    · cases h; exact .inr (.inr (.inl ⟨c, honor, rfl⟩))
  | bchk c =>
    simp only [outcome, cmdBchk] at h
    split at h
    · cases h
    · split at h
      · cases h
      · cases h; exact .inl rfl

/-- No command changes the configuration. -/
theorem outcome_ret_cfg {instr : Instr} {b b' : Block} {r : Result} (h : outcome instr b = .ret r b') :
    b'.cfg = b.cfg := by
  rcases outcome_ret_cases h with rfl | ⟨c, v, rfl⟩ | ⟨c, honor, rfl⟩ | ⟨-, ⟨c, v, rfl⟩ | ⟨vals, le, rfl⟩⟩ <;> simp

/-- Every command keeps the storage's form. -/
theorem outcome_ret_wf {instr : Instr} {b b' : Block} {r : Result} (h : outcome instr b = .ret r b')
    (hw : b.wf = true) : b'.wf = true := by
  rcases outcome_ret_cases h with rfl | ⟨c, v, rfl⟩ | ⟨c, honor, rfl⟩ | ⟨hk, ⟨c, v, rfl⟩ | ⟨vals, le, rfl⟩⟩
  · exact hw
  · exact Block.wf_set c v hw
  · exact Block.wf_flip c honor hw
  · exact Block.wf_recalcIfEnabled (Block.wf_set c v hw)
  · obtain ⟨hl, -, -⟩ := b.wf_iff.mp hw
    have eight : (place vals le).length = b.cells.length := by
      rw [place_length, hl, Cfg.cellCount_byte hk, Config.nbits]
    exact Block.wf_recalcIfEnabled (Block.wf_setAll _ eight hw)

/-- The block a command's end leaves: as it was, or the one that the command returns. -/
theorem State.complete_block_cases (s : State) (o : CmdOut) :
    (s.complete o).block = s.block ∨ ∃ r, o = .ret r (s.complete o).block := by
  cases o with
  | ret r b => exact .inr ⟨r, rfl⟩
  | raise e => exact .inl rfl
  | refuse r => exact .inl rfl

/-- A step with a word sent that decodes. -/
theorem step_command {s : State} {w : Word} {instr : Instr} {rest : List HostEvent}
    (h : s.host = .command w :: rest) (hd : decode w = .ok instr) :
    step s = .next ((s.taken rest).complete (outcome instr s.block)) := by
  simp [step, h, hd, exec_eq_complete]

/-- Everything a step can do to the block: rebuild it at a reset, leave it, or take what a command returns. -/
theorem step_block_cases {s t : State} (h : step s = .next t) :
    (∃ inp rest, s.host = .reset inp :: rest ∧ t.block = Block.construct inp.latch) ∨ t.block = s.block ∨
      ∃ instr r, outcome instr s.block = .ret r t.block := by
  cases hh : s.host with
  | nil =>
    rw [step_idle hh] at h
    cases h
    exact .inr (.inl rfl)
  | cons e rest =>
    cases e with
    | reset inp =>
      rw [step_reset hh] at h
      cases h
      exact .inl ⟨inp, rest, rfl, rfl⟩
    | command w =>
      cases hd : decode w with
      | error r =>
        rw [step_undecodable hh hd] at h
        cases h
        exact .inr (.inl rfl)
      | ok instr =>
        rw [step_command hh hd] at h
        cases h
        exact .inr (((s.taken rest).complete_block_cases _).imp id fun ⟨r, hr⟩ => ⟨instr, r, hr⟩)

/-- Settles O23: a reset gives the storage its form, and every command keeps it. -/
theorem stepKeepsStorageForm : Obligations.StepKeepsStorageForm := by
  intro s t hs h
  rcases step_block_cases h with ⟨inp, rest, -, hb⟩ | hb | ⟨instr, r, ho⟩
  · rw [State.Inv, hb]
    exact Block.wf_construct inp.latch
  · rwa [State.Inv, hb]
  · exact outcome_ret_wf ho hs

/-- Settles O17: without a reset, a step leaves the block or runs a command on it. -/
theorem configurationFixed : Obligations.ConfigurationFixed := by
  intro s t noReset h
  rcases step_block_cases h with ⟨inp, rest, hh, -⟩ | hb | ⟨instr, r, ho⟩
  · exact absurd (by rw [hh, List.head?_cons]) (noReset inp)
  · rw [hb]
  · exact outcome_ret_cfg ho

/-! ## Override reads -/

/-- The response of a command that ends so. -/
def CmdOut.response : CmdOut → Response
  | .ret r _ => okResponse r.rdata
  | .raise e => e.status.bare
  | .refuse _ => Status.refused.bare

/-- The response port shows the outcome's response, whatever the state. -/
theorem State.complete_response (s : State) (o : CmdOut) : (s.complete o).response = some o.response := by
  cases o <;> rfl

/-- Two blocks of one configuration that hold the same data; their shadows may differ. -/
structure Block.SameData (b b' : Block) : Prop where
  cfg : b.cfg = b'.cfg
  raw : b.rawData = b'.rawData
  bp : b.bpData = b'.bpData

/-- `D[c]` in terms of the raw data and `BP`. -/
theorem Block.dataAt_eq (b : Block) (c : Nat) : b.dataAt c = if c = 8 then b.bpData else b.rawData[c]? := by
  by_cases hc : c = 8
  · simp [hc, Block.dataAt, Block.bpData]
  · simp [hc, Block.dataAt, Block.cell?_data b hc, Block.rawData]

/-- With the same data, a cell is absent from both blocks, or in both with one value. -/
theorem Block.SameData.cell?_cases {b b' : Block} (h : b.SameData b') (c : Nat) :
    (b.cell? c = none ∧ b'.cell? c = none) ∨
      ∃ x x', b.cell? c = some x ∧ b'.cell? c = some x' ∧ x.data = x'.data := by
  have same : b.dataAt c = b'.dataAt c := by rw [Block.dataAt_eq, Block.dataAt_eq, h.raw, h.bp]
  unfold Block.dataAt at same
  cases hx : b.cell? c <;> cases hx' : b'.cell? c <;> simp_all

theorem Block.SameData.requireByte_response {b b' : Block} (h : b.SameData b') {o o' : CmdOut}
    (ho : o.response = o'.response) : (b.requireByte o).response = (b'.requireByte o').response := by
  unfold Block.requireByte
  rw [h.cfg]
  split
  · exact ho
  · rfl

theorem requireIndex_response (idx : Int) {o o' : CmdOut} (ho : o.response = o'.response) :
    (requireIndex idx o).response = (requireIndex idx o').response := by
  unfold requireIndex
  split
  · exact ho
  · rfl

/-- An override read of one cell answers its data (R67). -/
theorem Cell.get_override (x : Cell) : x.get true = .ok x.data := Cell.get_ok rfl

/-- An override GETBYTE on a Byte unit answers the raw data (R84). -/
theorem cmdGetByte_override (b : Block) : cmdGetByte true b = b.requireByte (.ret (.byte b.rawData) b) := by
  rcases readCells_cases true b.cells with ⟨-, hr⟩ | ⟨h, -⟩
  · simp [cmdGetByte, Block.byteGuard, Block.returnByte, hr, Block.rawData]
  · simp at h

theorem Block.SameData.getByte_response {b b' : Block} (h : b.SameData b') :
    (cmdGetByte true b).response = (cmdGetByte true b').response := by
  rw [cmdGetByte_override, cmdGetByte_override]
  exact h.requireByte_response (by rw [h.raw]; rfl)

theorem Block.SameData.getBit_response {b b' : Block} (h : b.SameData b') (idx : Int) :
    (cmdGetBit idx true b).response = (cmdGetBit idx true b').response := by
  refine h.requireByte_response (requireIndex_response idx ?_)
  rcases h.cell?_cases idx.toNat with ⟨hx, hx'⟩ | ⟨x, x', hx, hx', hd⟩
  · simp only [hx, hx', CmdOut.response]
  · simp only [hx, hx', Cell.get_override, Block.returnBit, CmdOut.response, hd]

theorem Block.SameData.bget_response {b b' : Block} (h : b.SameData b') (c : Nat) :
    (cmdBget c true b).response = (cmdBget c true b').response := by
  have space : b.inSpace c = b'.inSpace c := by simp only [Block.inSpace, h.cfg]
  unfold cmdBget Block.selected
  rw [space]
  cases b'.inSpace c with
  | false => rfl
  | true =>
    rcases h.cell?_cases c with ⟨hx, hx'⟩ | ⟨x, x', hx, hx', hd⟩
    · simp only [hx, hx', if_true, CmdOut.response]
    · simp only [hx, hx', if_true, Cell.get_override, Block.returnBit, CmdOut.response, hd]

/-- Settles O60: the response is the outcome's, and each override read's outcome answers from the data alone. -/
theorem overrideReadsSeeDataOnly : Obligations.OverrideReadsSeeDataOnly := by
  intro s s' t t' instr hi _ _ hcfg hraw hbp ht ht'
  have same : s.block.SameData s'.block := ⟨hcfg, hraw, hbp⟩
  rw [exec_eq_complete] at ht ht'
  cases ht
  cases ht'
  rw [State.complete_response, State.complete_response]
  rcases hi with rfl | ⟨idx, rfl⟩ | ⟨c, rfl⟩
  · exact congrArg some same.getByte_response
  · exact congrArg some (same.getBit_response idx)
  · exact congrArg some (same.bget_response c)

end Sys2Proof.Machine
end

section
/-! PROOFS of the family spec/20_memory.md: which commands write, and what a second write adds (R43); the two ways to
read a data cell (R37, R39). -/

namespace Sys2Proof.Machine

/-! ## What a second write adds -/

@[simp] theorem Cell.set_comp_set (v w : Bool) : Cell.set w ∘ Cell.set v = Cell.set w := by
  funext x
  cases x with
  | mk d sh => cases sh <;> rfl

/-- Two changes of one cell are one change of it. -/
theorem Block.modifyCell_modifyCell (b : Block) (c : Nat) (f g : Cell → Cell) :
    (b.modifyCell c f).modifyCell c g = b.modifyCell c (g ∘ f) := by
  unfold Block.modifyCell
  split
  · simp
  · simp [List.modify_modify_eq]

/-- A second recompute finds the same raw data (R80). -/
@[simp] theorem Block.byteRecalc_byteRecalc (b : Block) : b.byteRecalc.byteRecalc = b.byteRecalc := by
  rw [Block.byteRecalc, Block.byteRecalc_popRaw, Block.byteRecalc, Block.modifyCell_modifyCell, Cell.set_comp_set]

@[simp] theorem Block.recalcIfEnabled_recalcIfEnabled (b : Block) :
    b.recalcIfEnabled.recalcIfEnabled = b.recalcIfEnabled := by
  by_cases h : b.cfg.byteParity = true <;> simp [Block.recalcIfEnabled, h]

/-- A change of the data cells alone. -/
def Block.mapCells (g : List Cell → List Cell) (b : Block) : Block := { b with cells := g b.cells }

/-- A change of a cell other than the byte-parity cell is one of the data cells. -/
theorem Block.modifyCell_eq_mapCells {c : Nat} (hc : c ≠ Config.bpSelector) (f : Cell → Cell) (b : Block) :
    b.modifyCell c f = b.mapCells (·.modify c f) := if_neg hc

theorem Block.setAll_eq_mapCells (vals : List Bool) (b : Block) :
    b.setAll vals = b.mapCells (List.zipWith Cell.set vals) := rfl

theorem Block.mapCells_eq_self {g : List Cell → List Cell} {b : Block} (h : g b.cells = b.cells) : b.mapCells g = b := by
  rw [Block.mapCells, h]

/-- Where a second change of the data cells adds nothing to the first, neither does it with the recompute after each:
the recompute leaves the data cells as they are. -/
theorem Block.recalcIfEnabled_mapCells_idem {g : List Cell → List Cell} (hg : ∀ xs, g (g xs) = g xs) (b : Block) :
    ((b.mapCells g).recalcIfEnabled.mapCells g).recalcIfEnabled = (b.mapCells g).recalcIfEnabled := by
  have same : (b.mapCells g).recalcIfEnabled.mapCells g = (b.mapCells g).recalcIfEnabled := by
    refine Block.mapCells_eq_self ?_
    rw [Block.recalcIfEnabled_cells]
    exact hg b.cells
  rw [same, Block.recalcIfEnabled_recalcIfEnabled]

/-- A second trusted write of every cell with the same values changes no cell. -/
theorem zipWith_set_idem (vals : List Bool) (xs : List Cell) :
    List.zipWith Cell.set vals (List.zipWith Cell.set vals xs) = List.zipWith Cell.set vals xs := by
  induction vals generalizing xs with
  | nil => rfl
  | cons v vals ih =>
    cases xs with
    | nil => rfl
    | cons x xs =>
      simp only [List.zipWith_cons_cons, ih]
      rw [← Function.comp_apply (f := Cell.set v), Cell.set_comp_set]

/-- An index in range never selects the byte-parity cell (R34). -/
theorem indexInRange_toNat_ne {idx : Int} (h : indexInRange idx = true) : idx.toNat ≠ Config.bpSelector := by
  obtain ⟨-, below⟩ : 0 ≤ idx ∧ idx < Config.nbits := by simpa [indexInRange] using h
  change idx < 8 at below
  change idx.toNat ≠ 8
  omega

/-! ## Which commands write -/

/-- The block a command leaves when it completes: the one it found, for the five reading commands (R43). -/
def writtenBlock (instr : Instr) (b : Block) : Block :=
  match instr with
  | .getByte _ => b
  | .setBit idx v => (b.mapCells (·.modify idx.toNat (Cell.set v))).recalcIfEnabled
  | .getBit _ _ => b
  | .setByte vals le => (b.mapCells (List.zipWith Cell.set (place vals le))).recalcIfEnabled
  | .chkByte => b
  | .recalc => b.byteRecalc
  | .bget _ _ => b
  | .bset c v => b.modifyCell c (Cell.set v)
  | .bflip c honor => b.modifyCell c (Cell.flip honor)
  | .bchk _ => b

/-- GETBIT that completes answers the data of its cell and leaves the block as it is (R87). -/
theorem cmdGetBit_ret {b b' : Block} {idx : Int} {ovr : Bool} {r : Result} (h : cmdGetBit idx ovr b = .ret r b') :
    b' = b ∧ ∃ x, b.cell? idx.toNat = some x ∧ r = .bit x.data := by
  obtain ⟨-, h⟩ := Block.requireByte_eq_ret.mp h
  obtain ⟨-, h⟩ := requireIndex_eq_ret.mp h
  split at h
  · cases h
  next x hx =>
    rcases Cell.get_cases ovr x with ⟨-, hg⟩ | ⟨-, hg⟩ <;> rw [hg] at h <;> cases h
    exact ⟨rfl, x, hx, rfl⟩

/-- A command that completes leaves the block `writtenBlock` says. -/
theorem eq_writtenBlock_of_outcome_ret {instr : Instr} {b b' : Block} {r : Result}
    (h : outcome instr b = .ret r b') : b' = writtenBlock instr b := by
  cases instr with
  | getByte ovr => exact Block.eq_of_cmdGetByte_eq_ret h
  | setBit idx v =>
    obtain ⟨-, h⟩ := Block.requireByte_eq_ret.mp h
    obtain ⟨hi, h⟩ := requireIndex_eq_ret.mp h
    rw [Block.modifyCell_eq_mapCells (indexInRange_toNat_ne hi)] at h
    cases h
    rfl
  | getBit idx ovr => exact (cmdGetBit_ret h).1
  | setByte vals le =>
    simp only [outcome, cmdSetByte] at h
    split at h
    · cases h
    · obtain ⟨-, h⟩ := Block.requireByte_eq_ret.mp h
      cases h
      rfl
  | chkByte =>
    obtain ⟨-, h⟩ := Block.requireByte_eq_ret.mp h
    obtain ⟨-, h⟩ := Block.requireByteParity_eq_ret.mp h
    exact Block.eq_of_returnBit_eq_ret h
  | recalc =>
    obtain ⟨-, h⟩ := Block.requireByte_eq_ret.mp h
    obtain ⟨-, h⟩ := Block.requireByteParity_eq_ret.mp h
    cases h
    rfl
  | bget c ovr =>
    simp only [outcome, cmdBget] at h
    split at h
    · cases h
    · exact Block.eq_of_returnBit_eq_ret h
  | bset c v =>
    simp only [outcome, cmdBset] at h
    split at h <;> cases h
    rfl
  | bflip c honor =>
    simp only [outcome, cmdBflip] at h
    split at h <;> cases h
    rfl
  | bchk c =>
    simp only [outcome, cmdBchk] at h
    split at h
    · cases h
    · split at h <;> cases h
      rfl

theorem writtenBlock_of_readOnly {instr : Instr} (h : readOnly instr = true) (b : Block) :
    writtenBlock instr b = b := by
  cases instr with
  | getByte | getBit | chkByte | bget | bchk => rfl
  | setBit | setByte | recalc | bset | bflip => cases h

/-- Every command but BFLIP writes the same again the second time. -/
theorem writtenBlock_idem {instr : Instr} (h : ∀ c honor, instr ≠ .bflip c honor) (b : Block) :
    writtenBlock instr (writtenBlock instr b) = writtenBlock instr b := by
  cases instr with
  | getByte | getBit | chkByte | bget | bchk => rfl
  | setBit idx v =>
    exact Block.recalcIfEnabled_mapCells_idem (fun xs => by rw [List.modify_modify_eq, Cell.set_comp_set]) b
  | setByte vals le => exact Block.recalcIfEnabled_mapCells_idem (zipWith_set_idem _) b
  | recalc => exact b.byteRecalc_byteRecalc
  | bset c v => exact (b.modifyCell_modifyCell c _ _).trans (by rw [Cell.set_comp_set]; rfl)
  | bflip c honor => exact absurd rfl (h c honor)

/-- Settles O27: only a command that completes can write, and a reading command then writes nothing. -/
theorem readsWriteNothing : Obligations.ReadsWriteNothing := by
  intro instr s t hread h
  rw [exec_eq_complete] at h
  cases h
  rcases s.complete_block_cases (outcome instr s.block) with hb | ⟨r, ho⟩
  · exact hb
  · exact (eq_writtenBlock_of_outcome_ret ho).trans (writtenBlock_of_readOnly hread s.block)

/-- Settles O28: a command that did not complete meets the same block again; one that did writes the same again. -/
theorem writesIdempotent : Obligations.WritesIdempotent := by
  intro instr s t u _ hflip ht hu
  rw [exec_eq_complete] at ht hu
  cases ht
  cases hu
  cases ho : outcome instr s.block with
  | raise e => simp [ho]
  | refuse why => simp [ho]
  | ret r b =>
    rcases (s.succeed r b).complete_block_cases (outcome instr b) with hb | ⟨r', hu⟩
    · exact hb
    · have first := eq_writtenBlock_of_outcome_ret ho
      have second := eq_writtenBlock_of_outcome_ret hu
      rw [first, writtenBlock_idem hflip, ← first] at second
      exact second

/-! ## The two ways to read a data cell -/

theorem Status.eq_ok_of_code {st : Status} (h : st.code = 0) : st = .ok := by
  revert h
  cases st <;> decide

/-- A response with status 0 is that of a command that completes (R60). -/
theorem CmdOut.eq_ret_of_response_ok {o : CmdOut} {rd : Byte} (h : o.response = { status := 0, rdata := rd }) :
    ∃ r b, o = .ret r b ∧ r.rdata = rd := by
  have status : o.response.status = 0 := by rw [h]
  cases o with
  | ret r b => exact ⟨r, b, rfl, congrArg Response.rdata h⟩
  | raise e =>
    have ok : e.status = .ok := Status.eq_ok_of_code status
    cases e <;> cases ok
  | refuse why => cases Status.eq_ok_of_code (st := .refused) status

/-- A command that answers status 0 has completed, with the answered `rdata`. -/
theorem outcome_ret_of_exec_ok {instr : Instr} {s t : State} {rd : Byte} (h : exec instr s = .next t)
    (hr : t.response = some { status := 0, rdata := rd }) : ∃ r b, outcome instr s.block = .ret r b ∧ r.rdata = rd := by
  rw [exec_eq_complete] at h
  cases h
  rw [State.complete_response] at hr
  exact CmdOut.eq_ret_of_response_ok (Option.some.inj hr)

/-- GETBYTE that completes answers the raw data, with and without override (R84). -/
theorem cmdGetByte_ret {b b' : Block} {ovr : Bool} {r : Result} (h : cmdGetByte ovr b = .ret r b') :
    r = .byte b.rawData := by
  obtain ⟨-, h⟩ := Block.requireByte_eq_ret.mp h
  split at h
  · cases h
  · cases h
  · rcases readCells_cases ovr b.cells with ⟨-, hr⟩ | ⟨-, hr⟩ <;> simp only [Block.returnByte, hr] at h <;> cases h
    rfl

/-- Bit `k` of the packed number is element `k`. -/
theorem testBit_packNat (vs : List Bool) (k : Nat) : (packNat vs).testBit k = vs.getD k false := by
  induction vs generalizing k with
  | nil => simp [packNat]
  | cons v vs ih =>
    have bit : packNat (v :: vs) = Nat.bit v (packNat vs) := by rw [Nat.bit_val, packNat, Nat.add_comm]
    rw [bit]
    cases k with
    | zero => simp
    | succ k => rw [Nat.testBit_bit_succ, ih, List.getD_cons_succ]

/-- Bit `k` of `rdata` is element `k` (R37). -/
theorem getLsbD_packBits {k : Nat} (hk : k < 8) (vs : List Bool) : (packBits vs).getLsbD k = vs.getD k false := by
  rw [packBits, BitVec.getLsbD_ofNat, testBit_packNat, decide_eq_true hk, Bool.true_and]

/-- Settles O53: both read the raw data, so bit `k` of GETBYTE's answer is the data of cell `k`. -/
theorem getByteAgreesWithGetBit : Obligations.GetByteAgreesWithGetBit := by
  intro s t u k ovr rd rd' hk ht hu hrd hrd'
  obtain ⟨r, b, hbyte, rfl⟩ := outcome_ret_of_exec_ok ht hrd
  obtain ⟨r', b', hbit, rfl⟩ := outcome_ret_of_exec_ok hu hrd'
  obtain rfl := cmdGetByte_ret hbyte
  obtain ⟨-, x, hx, rfl⟩ := cmdGetBit_ret hbit
  rw [Int.toNat_natCast, Block.cell?_data _ hk.ne] at hx
  have data : s.block.rawData.getD k false = x.data := by simp [Block.rawData, hx]
  rw [Result.rdata, Result.rdata, getLsbD_packBits hk, data, bitRdata]

end Sys2Proof.Machine
end

section
/-! PROOFS of the family spec/30_encoding.md: the command word and its two directions (R51 to R56, R62). -/

namespace Sys2Proof

open Machine

/-! ## The fields of a word (R51) -/

theorem getLsbD_opField {k : Nat} (hk : k < 4) (w : Word) : (opField w).getLsbD k = w.getLsbD k := by
  simp [opField, hk]

theorem getLsbD_idxField {k : Nat} (hk : k < 8) (w : Word) : (idxField w).getLsbD k = w.getLsbD (8 + k) := by
  simp [idxField, hk]

theorem getLsbD_dataField {k : Nat} (hk : k < 8) (w : Word) : (dataField w).getLsbD k = w.getLsbD (16 + k) := by
  simp [dataField, hk]

theorem getLsbD_lenField {k : Nat} (hk : k < 4) (w : Word) : (lenField w).getLsbD k = w.getLsbD (24 + k) := by
  simp [lenField, hk]

/-- A field put at bit `p` of the word: its own bits there, zeros elsewhere. -/
theorem getLsbD_placed {w p : Nat} (fits : p + w ≤ 32) (x : BitVec w) (k : Nat) :
    (x.setWidth 32 <<< p).getLsbD k = if p ≤ k ∧ k < p + w then x.getLsbD (k - p) else false := by
  rw [BitVec.getLsbD_shiftLeft, BitVec.getLsbD_setWidth]
  split_ifs with inside
  · simp (disch := omega) only [decide_eq_true, decide_eq_false, Bool.not_false, Bool.true_and]
  · by_cases below : k < p
    · simp [below]
    · simp [BitVec.getLsbD_of_ge x (k - p) (by omega)]

/-- Every bit of an assembled word, from the layout of R51. -/
theorem getLsbD_assembleWord (op : Op) (f v : Bool) (idx dat : BitVec 8) (n : BitVec 4) (k : Nat) :
    (assembleWord op f v idx dat n).getLsbD k =
      if k < 4 then op.code.getLsbD k
      else if k = 4 then f
      else if k = 5 then v
      else if k < 8 then false
      else if k < 16 then idx.getLsbD (k - 8)
      else if k < 24 then dat.getLsbD (k - 16)
      else n.getLsbD (k - 24) := by
  have code : (op.code.setWidth 32).getLsbD k = if k < 4 then op.code.getLsbD k else false := by
    simpa using getLsbD_placed (p := 0) (by omega) op.code k
  have past (h : 28 ≤ k) : n.getLsbD (k - 24) = false := BitVec.getLsbD_of_ge n _ (by omega)
  have fields : k < 4 ∨ k = 4 ∨ k = 5 ∨ (5 < k ∧ k < 8) ∨ (8 ≤ k ∧ k < 16) ∨ (16 ≤ k ∧ k < 24) ∨
      (24 ≤ k ∧ k < 28) ∨ 28 ≤ k := by omega
  simp only [assembleWord, BitVec.getLsbD_or, code, getLsbD_placed, BitVec.getLsbD_ofBool, Nat.reduceAdd,
    Nat.reduceLeDiff]
  rcases fields with h | h | h | h | h | h | h | h <;>
    simp (disch := omega) only [if_pos, if_neg, past, decide_eq_true, Bool.or_false, Bool.false_or, Bool.true_and]

section
variable (op : Op) (f v : Bool) (idx dat : BitVec 8) (n : BitVec 4)

@[simp] theorem flagField_assembleWord : flagField (assembleWord op f v idx dat n) = f := by
  rw [flagField, getLsbD_assembleWord]
  rfl

@[simp] theorem valueField_assembleWord : valueField (assembleWord op f v idx dat n) = v := by
  rw [valueField, getLsbD_assembleWord]
  rfl

@[simp] theorem idxField_assembleWord : idxField (assembleWord op f v idx dat n) = idx :=
  BitVec.eq_of_getLsbD_eq fun k hk => by
    rw [getLsbD_idxField hk, getLsbD_assembleWord]
    simp (disch := omega) only [if_pos, if_neg, Nat.add_sub_cancel_left]

@[simp] theorem dataField_assembleWord : dataField (assembleWord op f v idx dat n) = dat :=
  BitVec.eq_of_getLsbD_eq fun k hk => by
    rw [getLsbD_dataField hk, getLsbD_assembleWord]
    simp (disch := omega) only [if_pos, if_neg, Nat.add_sub_cancel_left]

@[simp] theorem lenField_assembleWord : lenField (assembleWord op f v idx dat n) = n :=
  BitVec.eq_of_getLsbD_eq fun k hk => by
    rw [getLsbD_lenField hk, getLsbD_assembleWord]
    simp (disch := omega) only [if_neg, Nat.add_sub_cancel_left]

end

/-! ## The rows of the opcode table (R53, R54) -/

theorem Op.code_injective : Function.Injective Op.code := by
  intro op op'
  cases op <;> cases op' <;> simp [Op.code]

theorem Op.ofCode_eq_some_iff {c : BitVec 4} {op : Op} : Op.ofCode c = some op ↔ c = op.code := by
  revert c
  cases op <;> decide

theorem Op.ofCode_eq_none_iff {c : BitVec 4} : Op.ofCode c = none ↔ c.toNat ∈ [0x0, 0x7, 0xC, 0xD, 0xE, 0xF] := by
  revert c
  decide

/-- The mask column keeps OP and the bits the table marks 0. -/
theorem Op.getLsbD_mask (op : Op) (k : Nat) : op.mask.getLsbD k = (decide (k < 4) || mustBeZero op k) := by
  by_cases hk : k < 32
  · revert k
    cases op <;> decide
  · have above : ¬ k < 4 := by omega
    simp [BitVec.getLsbD_of_ge op.mask k (by omega), mustBeZero, hk, above]

/-- The match column is the opcode, with zeros above it. -/
theorem Op.getLsbD_pattern (op : Op) (k : Nat) : op.pattern.getLsbD k = op.code.getLsbD k := by
  have zeros_above : op.pattern = op.code.setWidth 32 := by cases op <;> rfl
  rw [zeros_above, BitVec.getLsbD_setWidth]
  by_cases hk : k < 32
  · simp [hk]
  · simp [BitVec.getLsbD_of_ge op.code k (by omega)]

/-- OP is no bit the table marks 0. -/
theorem le_of_mustBeZero {op : Op} {k : Nat} (h : mustBeZero op k = true) : 4 ≤ k := by
  simp only [mustBeZero, Bool.and_eq_true, decide_eq_true_eq] at h
  exact h.1.1

/-- A row matches the words that have its opcode and zeros where it says (R54). -/
theorem matches_iff {w : Word} {op : Op} :
    w &&& op.mask = op.pattern ↔ opField w = op.code ∧ ∀ k, mustBeZero op k = true → w.getLsbD k = false := by
  have bitwise : w &&& op.mask = op.pattern ↔
      ∀ k, (w.getLsbD k && (decide (k < 4) || mustBeZero op k)) = op.code.getLsbD k := by
    simp only [← Op.getLsbD_mask, ← Op.getLsbD_pattern, ← BitVec.getLsbD_and]
    exact ⟨fun h _ => by rw [h], fun h => BitVec.eq_of_getLsbD_eq fun k _ => h k⟩
  rw [bitwise]
  constructor
  · intro h
    refine ⟨BitVec.eq_of_getLsbD_eq fun k hk => ?_, fun k hz => ?_⟩
    · rw [getLsbD_opField hk, ← h k, decide_eq_true hk, Bool.true_or, Bool.and_true]
    · rw [← BitVec.getLsbD_of_ge op.code k (le_of_mustBeZero hz), ← h k, hz, Bool.or_true, Bool.and_true]
  · intro ⟨hop, hz⟩ k
    by_cases hk : k < 4
    · rw [← hop, getLsbD_opField hk, decide_eq_true hk, Bool.true_or, Bool.and_true]
    · rw [BitVec.getLsbD_of_ge op.code k (by omega), decide_eq_false hk, Bool.false_or]
      cases hm : mustBeZero op k with
      | false => rw [Bool.and_false]
      | true => rw [hz k hm, Bool.false_and]

/-- Settles O7: two rows that match one word have its OP in common. -/
theorem rowsDisjoint : Obligations.RowsDisjoint := by
  intro op op' w h h'
  exact Op.code_injective ((matches_iff.mp h).1.symm.trans (matches_iff.mp h').1)

/-! ## What the decoder can do (R55, R56, R62) -/

theorem decode_illegalOpcode {w : Word} (h : Op.ofCode (opField w) = none) : decode w = .error .illegalOpcode := by
  simp [decode, h]

theorem decode_reservedBits {w : Word} {op : Op} (h : Op.ofCode (opField w) = some op)
    (hm : w &&& op.mask ≠ op.pattern) : decode w = .error .reservedBits := by
  simp [decode, h, hm]

/-- A word that a row matches is read by that row. -/
theorem decode_of_matches {w : Word} {op : Op} (h : w &&& op.mask = op.pattern) : decode w = decodeOperands op w := by
  simp [decode, Op.ofCode_eq_some_iff.mpr (matches_iff.mp h).1, h]

/-- Only SETBYTE's own checks refuse a word that a row matches. -/
theorem decodeOperands_error {op : Op} {w : Word} {r : Reason} (h : decodeOperands op w = .error r) :
    r = .badLength ∨ r = .strayData := by
  cases op with
  | setByte =>
    simp only [decodeOperands, decodeSetByte] at h
    split_ifs at h <;> cases h
    · exact .inl rfl
    · exact .inr rfl
  | getByte | setBit | getBit | chkByte | recalc | bget | bset | bflip | bchk => cases h

/-- Settles O4: past the opcode's own check, no word is refused for its opcode. -/
theorem illegalOpcodeWords : Obligations.IllegalOpcodeWords := by
  intro w
  rw [← Op.ofCode_eq_none_iff]
  refine ⟨⟨fun h => ?_, decode_illegalOpcode⟩, ?_⟩
  · cases hop : Op.ofCode (opField w) with
    | none => rfl
    | some op =>
      by_cases hm : w &&& op.mask = op.pattern
      · rw [decode_of_matches hm] at h
        rcases decodeOperands_error h with hr | hr <;> cases hr
      · rw [decode_reservedBits hop hm] at h
        cases h
  · cases decode w with
    | ok instr => exact .inl ⟨instr, rfl⟩
    | error r => exact .inr ⟨r, rfl⟩

/-- Settles O5: with the row's opcode, only a bit marked 0 keeps the row from matching. -/
theorem reservedBitsWords : Obligations.ReservedBitsWords := by
  intro w op hop
  have fails : (∃ k, mustBeZero op k = true ∧ w.getLsbD k = true) ↔ w &&& op.mask ≠ op.pattern := by
    simp [matches_iff, Op.ofCode_eq_some_iff.mp hop]
  rw [fails]
  refine ⟨fun h hm => ?_, decode_reservedBits hop⟩
  rw [decode_of_matches hm] at h
  rcases decodeOperands_error h with hr | hr <;> cases hr

/-! ## SETBYTE's sequence (R52, R55) -/

@[simp] theorem elements_length (dat : BitVec 8) (n : Nat) : (elements dat n).length = n := by
  simp [elements]

theorem getElem?_elements {dat : BitVec 8} {n k : Nat} (hk : k < n) : (elements dat n)[k]? = some (dat.getLsbD k) := by
  simp [elements, hk]

/-- `StrayData`'s condition (R55), bit by bit. -/
theorem stray_iff (dat : BitVec 8) (n : Nat) : dat >>> n ≠ 0 ↔ ∃ k, n ≤ k ∧ k < 8 ∧ dat.getLsbD k = true := by
  constructor
  · intro h
    by_contra unset
    refine h (BitVec.eq_of_getLsbD_eq fun k hk => ?_)
    rw [BitVec.getLsbD_ushiftRight]
    by_cases hlt : n + k < 8
    · simpa using fun hb => unset ⟨n + k, by omega, hlt, hb⟩
    · simp [BitVec.getLsbD_of_ge dat (n + k) (by omega)]
  · rintro ⟨k, hn, -, hb⟩ h
    have := congrArg (·.getLsbD (k - n)) h
    simp [BitVec.getLsbD_ushiftRight, Nat.add_sub_cancel' hn, hb] at this

theorem decodeSetByte_badLength_iff {dat : BitVec 8} {n : Nat} {le : Bool} :
    decodeSetByte dat n le = .error .badLength ↔ 8 < n := by
  unfold decodeSetByte
  split_ifs <;> simp_all [Config.maxElements]

theorem decodeSetByte_strayData_iff {dat : BitVec 8} {n : Nat} {le : Bool} :
    decodeSetByte dat n le = .error .strayData ↔ n ≤ 8 ∧ ∃ k, n ≤ k ∧ k < 8 ∧ dat.getLsbD k = true := by
  rw [← stray_iff]
  unfold decodeSetByte
  split_ifs <;> simp_all [Config.maxElements]

theorem decodeSetByte_ok {dat : BitVec 8} {n : Nat} (le : Bool) (hn : n ≤ 8)
    (hs : ∀ k, n ≤ k → k < 8 → dat.getLsbD k = false) :
    decodeSetByte dat n le = .ok (.setByte (elements dat n) le) := by
  have no_stray : dat >>> n = 0 := by
    by_contra h
    obtain ⟨k, hk, hk8, hb⟩ := (stray_iff dat n).mp h
    simp [hs k hk hk8] at hb
  simp [decodeSetByte, Config.maxElements, Nat.not_lt.mpr hn, no_stray]

/-- Settles O6: SETBYTE's row matches the word, so its own two checks decide. -/
theorem setByteWords : Obligations.SetByteWords := by
  intro w hop hz
  have reads : decode w = decodeSetByte (dataField w) (lenField w).toNat (w.getLsbD 4) :=
    decode_of_matches (op := .setByte) (matches_iff.mpr ⟨hop, hz⟩)
  have data (k : Nat) (hk : k < 8) : w.getLsbD (16 + k) = (dataField w).getLsbD k := (getLsbD_dataField hk w).symm
  rw [reads]
  refine ⟨decodeSetByte_badLength_iff, ?_, fun hn hs => ?_⟩
  · rw [decodeSetByte_strayData_iff]
    exact and_congr_right fun _ => exists_congr fun k => and_congr_right fun _ =>
      and_congr_right fun hk => by rw [data k hk]
  · have clean (k : Nat) (hk : (lenField w).toNat ≤ k) (hk8 : k < 8) : (dataField w).getLsbD k = false := by
      rw [← data k hk8, hs k hk hk8]
    refine ⟨_, decodeSetByte_ok _ hn clean, elements_length _ _, fun k hk => ?_⟩
    rw [elements_length] at hk
    rw [getElem?_elements hk, data k (by omega)]

/-! ## The two directions (R62) -/

/-- The fields the table marks 0 for the row are zero (R54). -/
structure FitsRow (op : Op) (f v : Bool) (idx dat : BitVec 8) (n : BitVec 4) : Prop where
  flag : mustBeZero op 4 = true → f = false
  value : mustBeZero op 5 = true → v = false
  idx : mustBeZero op 8 = true → idx = 0
  data : mustBeZero op 16 = true → dat = 0
  len : mustBeZero op 24 = true → n = 0

/-- A field is marked 0 as a whole: IDX. -/
theorem mustBeZero_idx (op : Op) {k : Nat} (hk : k < 8) : mustBeZero op (8 + k) = mustBeZero op 8 := by
  revert k
  cases op <;> decide

/-- A field is marked 0 as a whole: DATA. -/
theorem mustBeZero_data (op : Op) {k : Nat} (hk : k < 8) : mustBeZero op (16 + k) = mustBeZero op 16 := by
  revert k
  cases op <;> decide

/-- A field is marked 0 as a whole: N. -/
theorem mustBeZero_len (op : Op) {k : Nat} (hk : k < 4) : mustBeZero op (24 + k) = mustBeZero op 24 := by
  revert k
  cases op <;> decide

/-- RSV0 and RSV1 are marked 0 for every opcode. -/
theorem mustBeZero_reserved (op : Op) {k : Nat} (hk : (5 < k ∧ k < 8) ∨ (27 < k ∧ k < 32)) :
    mustBeZero op k = true := by
  have table : ∀ k < 32, (5 < k ∧ k < 8) ∨ 27 < k → mustBeZero op k = true := by cases op <;> decide
  exact table k (by omega) (by omega)

/-- The row of its opcode matches a word whose unused fields are zero. -/
theorem matches_assembleWord {op : Op} {f v : Bool} {idx dat : BitVec 8} {n : BitVec 4}
    (h : FitsRow op f v idx dat n) : assembleWord op f v idx dat n &&& op.mask = op.pattern := by
  refine matches_iff.mpr ⟨Laws.OpcodeField.opField_assembleWord .., fun k hz => ?_⟩
  have hk := le_of_mustBeZero hz
  rw [getLsbD_assembleWord]
  split_ifs with h4 hf hv h8 h16 h24
  · omega
  · exact h.flag (hf ▸ hz)
  · exact h.value (hv ▸ hz)
  · rfl
  · rw [← Nat.add_sub_cancel' (Nat.le_of_not_lt h8), mustBeZero_idx op (by omega)] at hz
    simp [h.idx hz]
  · rw [← Nat.add_sub_cancel' (Nat.le_of_not_lt h16), mustBeZero_data op (by omega)] at hz
    simp [h.data hz]
  · by_cases h28 : k < 28
    · rw [← Nat.add_sub_cancel' (Nat.le_of_not_lt h24), mustBeZero_len op (by omega)] at hz
      simp [h.len hz]
    · exact BitVec.getLsbD_of_ge n _ (by omega)

/-- The unused fields of a word that its row matches are zero. -/
theorem fitsRow_of_matches {op : Op} {w : Word} (h : w &&& op.mask = op.pattern) :
    FitsRow op (flagField w) (valueField w) (idxField w) (dataField w) (lenField w) := by
  obtain ⟨-, hz⟩ := matches_iff.mp h
  refine ⟨hz 4, hz 5, fun h8 => ?_, fun h16 => ?_, fun h24 => ?_⟩
  · exact BitVec.eq_of_getLsbD_eq fun k hk => by
      rw [getLsbD_idxField hk, hz _ ((mustBeZero_idx op hk).trans h8)]; exact BitVec.getLsbD_zero.symm
  · exact BitVec.eq_of_getLsbD_eq fun k hk => by
      rw [getLsbD_dataField hk, hz _ ((mustBeZero_data op hk).trans h16)]; exact BitVec.getLsbD_zero.symm
  · exact BitVec.eq_of_getLsbD_eq fun k hk => by
      rw [getLsbD_lenField hk, hz _ ((mustBeZero_len op hk).trans h24)]; exact BitVec.getLsbD_zero.symm

/-- A word that a row matches is assembled from its own fields. -/
theorem assembleWord_fields {op : Op} {w : Word} (h : w &&& op.mask = op.pattern) :
    assembleWord op (flagField w) (valueField w) (idxField w) (dataField w) (lenField w) = w := by
  obtain ⟨hop, hz⟩ := matches_iff.mp h
  refine BitVec.eq_of_getLsbD_eq fun k hk => ?_
  rw [getLsbD_assembleWord]
  split_ifs with h4 hf hv h8 h16 h24
  · rw [← hop, getLsbD_opField h4]
  · rw [hf]; rfl
  · rw [hv]; rfl
  · exact (hz k (mustBeZero_reserved op (by omega))).symm
  · rw [getLsbD_idxField (by omega), Nat.add_sub_cancel' (by omega)]
  · rw [getLsbD_dataField (by omega), Nat.add_sub_cancel' (by omega)]
  · by_cases h28 : k < 28
    · rw [getLsbD_lenField (by omega), Nat.add_sub_cancel' (by omega)]
    · rw [hz k (mustBeZero_reserved op (by omega))]
      exact BitVec.getLsbD_of_ge _ _ (by omega)

/-- A word that decodes is read by a row that matches it. -/
theorem matches_of_decode_ok {w : Word} {instr : Instr} (h : decode w = .ok instr) :
    ∃ op : Op, w &&& op.mask = op.pattern ∧ decodeOperands op w = .ok instr := by
  cases hop : Op.ofCode (opField w) with
  | none => rw [decode_illegalOpcode hop] at h; cases h
  | some op =>
    by_cases hm : w &&& op.mask = op.pattern
    · exact ⟨op, hm, decode_of_matches hm ▸ h⟩
    · rw [decode_reservedBits hop hm] at h; cases h

theorem getLsbD_packBits_past {k : Nat} {vs : List Bool} (hk : vs.length ≤ k) : (packBits vs).getLsbD k = false := by
  by_cases h8 : k < 8
  · simp [getLsbD_packBits h8, hk]
  · exact BitVec.getLsbD_of_ge _ _ (by omega)

/-- The elements of the packed sequence are the sequence (R52). -/
theorem elements_packBits {vs : List Bool} (h : vs.length ≤ 8) : elements (packBits vs) vs.length = vs := by
  refine List.ext_getElem (by simp) fun k _ hk => ?_
  rw [← Option.some_inj, ← List.getElem?_eq_getElem, getElem?_elements hk, getLsbD_packBits (by omega)]
  simp [hk]

/-- DATA without a stray bit is its elements, packed (R55). -/
theorem packBits_elements {dat : BitVec 8} {n : Nat} (h : dat >>> n = 0) : packBits (elements dat n) = dat := by
  refine BitVec.eq_of_getLsbD_eq fun k hk => ?_
  rw [getLsbD_packBits hk, List.getD_eq_getElem?_getD]
  by_cases hn : k < n
  · rw [getElem?_elements hn, Option.getD_some]
  · rw [List.getElem?_eq_none (by simpa using hn), Option.getD_none]
    by_contra hb
    exact absurd h ((stray_iff dat n).mpr ⟨k, by omega, hk, by simpa using Ne.symm hb⟩)

theorem toNat_ofInt_of_indexFits {idx : Int} (h : Instr.indexFits idx = true) :
    ((BitVec.ofInt 8 idx).toNat : Int) = idx := by
  simp only [Instr.indexFits, Bool.and_eq_true, decide_eq_true_eq] at h
  rw [BitVec.toNat_ofInt]
  omega

theorem toNat_ofNat_of_selectorFits {c : Nat} (h : Instr.selectorFits c = true) : (BitVec.ofNat 8 c).toNat = c := by
  simp only [Instr.selectorFits, decide_eq_true_eq] at h
  rw [BitVec.toNat_ofNat]
  omega

@[simp] theorem indexFits_toNat (x : BitVec 8) : Instr.indexFits x.toNat = true := by
  simp only [Instr.indexFits, Bool.and_eq_true, decide_eq_true_eq]
  omega

@[simp] theorem selectorFits_toNat (x : BitVec 8) : Instr.selectorFits x.toNat = true :=
  decide_eq_true x.isLt

@[simp] theorem ofInt_toNat (x : BitVec 8) : BitVec.ofInt 8 x.toNat = x := by
  simp

/-- The encoder leaves the fields zero that its row does not use. -/
theorem encode_matches (instr : Instr) : encode instr &&& instr.op.mask = instr.op.pattern := by
  cases instr <;> exact matches_assembleWord (by constructor <;> simp [mustBeZero])

/-- Settles O1: the command's row matches its word, and each field the row uses gives its operand back. -/
theorem decodeOfEncode : Obligations.DecodeOfEncode := by
  intro instr hwf
  rw [decode_of_matches (encode_matches instr)]
  cases instr with
  | getByte ovr => simp only [Instr.op, decodeOperands, encode, flagField_assembleWord]
  | setBit idx v =>
    simp only [Instr.op, decodeOperands, encode, idxField_assembleWord, valueField_assembleWord,
      toNat_ofInt_of_indexFits hwf]
  | getBit idx ovr =>
    simp only [Instr.op, decodeOperands, encode, idxField_assembleWord, flagField_assembleWord,
      toNat_ofInt_of_indexFits hwf]
  | setByte vals le =>
    have short : vals.length ≤ 8 := of_decide_eq_true hwf
    have len : (BitVec.ofNat 4 vals.length).toNat = vals.length := by rw [BitVec.toNat_ofNat]; omega
    simp only [Instr.op, decodeOperands, encode, dataField_assembleWord, lenField_assembleWord, flagField_assembleWord,
      len]
    rw [decodeSetByte_ok le short fun k hk _ => getLsbD_packBits_past hk, elements_packBits short]
  | chkByte | recalc => rfl
  | bget c ovr | bflip c ovr =>
    simp only [Instr.op, decodeOperands, encode, idxField_assembleWord, flagField_assembleWord,
      toNat_ofNat_of_selectorFits hwf]
  | bset c v =>
    simp only [Instr.op, decodeOperands, encode, idxField_assembleWord, valueField_assembleWord,
      toNat_ofNat_of_selectorFits hwf]
  | bchk c =>
    simp only [Instr.op, decodeOperands, encode, idxField_assembleWord, toNat_ofNat_of_selectorFits hwf]

/-- What SETBYTE's checks let through. -/
theorem decodeSetByte_eq_ok {dat : BitVec 8} {n : Nat} {le : Bool} {instr : Instr}
    (h : decodeSetByte dat n le = .ok instr) : n ≤ 8 ∧ dat >>> n = 0 ∧ instr = .setByte (elements dat n) le := by
  unfold decodeSetByte at h
  split_ifs at h with long stray
  cases h
  exact ⟨Nat.le_of_not_lt long, not_ne_iff.mp stray, rfl⟩

/-- Settles O2: the word is assembled from its fields, and the command keeps every field its row uses. -/
theorem encodeOfDecode : Obligations.EncodeOfDecode := by
  intro w instr h
  obtain ⟨op, hm, ho⟩ := matches_of_decode_ok h
  have fits := fitsRow_of_matches hm
  have word := assembleWord_fields hm
  cases op with
  | getByte =>
    rw [fits.value rfl, fits.idx rfl, fits.data rfl, fits.len rfl] at word
    cases ho
    exact ⟨rfl, word⟩
  | setBit =>
    rw [fits.flag rfl, fits.data rfl, fits.len rfl] at word
    cases ho
    exact ⟨indexFits_toNat _, by rw [encode, ofInt_toNat, word]⟩
  | getBit =>
    rw [fits.value rfl, fits.data rfl, fits.len rfl] at word
    cases ho
    exact ⟨indexFits_toNat _, by rw [encode, ofInt_toNat, word]⟩
  | setByte =>
    rw [fits.value rfl, fits.idx rfl] at word
    obtain ⟨short, stray, rfl⟩ := decodeSetByte_eq_ok ho
    exact ⟨decide_eq_true (by rwa [elements_length]),
      by rw [encode, packBits_elements stray, elements_length, BitVec.ofNat_toNat, BitVec.setWidth_eq, word]⟩
  | chkByte | recalc =>
    rw [fits.flag rfl, fits.value rfl, fits.idx rfl, fits.data rfl, fits.len rfl] at word
    cases ho
    exact ⟨rfl, word⟩
  | bget | bflip =>
    rw [fits.value rfl, fits.data rfl, fits.len rfl] at word
    cases ho
    exact ⟨selectorFits_toNat _, by rw [encode, BitVec.ofNat_toNat, BitVec.setWidth_eq, word]⟩
  | bset =>
    rw [fits.flag rfl, fits.data rfl, fits.len rfl] at word
    cases ho
    exact ⟨selectorFits_toNat _, by rw [encode, BitVec.ofNat_toNat, BitVec.setWidth_eq, word]⟩
  | bchk =>
    rw [fits.flag rfl, fits.value rfl, fits.data rfl, fits.len rfl] at word
    cases ho
    exact ⟨selectorFits_toNat _, by rw [encode, BitVec.ofNat_toNat, BitVec.setWidth_eq, word]⟩

/-- Settles O3: each of these words is its command's own. -/
theorem specWordsDecode : Obligations.SpecWordsDecode :=
  ⟨decodeOfEncode (.getByte true) rfl, decodeOfEncode (.setBit 7 true) rfl, decodeOfEncode (.getBit 200 true) rfl,
    decodeOfEncode (.setByte [true, true, false] true) rfl, decodeOfEncode .chkByte rfl, decodeOfEncode .recalc rfl,
    decodeOfEncode (.bget 8 false) rfl, decodeOfEncode (.bset 4 true) rfl, decodeOfEncode (.bflip 2 false) rfl,
    decodeOfEncode (.bchk 8) rfl⟩

/-! ## The value of a word (R51, R64) -/

/-- A field put above the bits in use adds its value there. -/
theorem toNat_or_placed {w p m : Nat} {x : Word} (hx : x.toNat = m) (y : BitVec w) (above : m < 2 ^ p)
    (fits : 2 ^ p * 2 ^ w ≤ 2 ^ 32) : (x ||| y.setWidth 32 <<< p).toNat = m + 2 ^ p * y.toNat := by
  have placed : 2 ^ p * y.toNat < 2 ^ 32 := lt_of_lt_of_le (Nat.mul_lt_mul_of_pos_left y.isLt (by positivity)) fits
  have narrow : y.toNat < 2 ^ 32 := lt_of_le_of_lt (Nat.le_mul_of_pos_left _ (by positivity)) placed
  rw [BitVec.toNat_or, BitVec.toNat_shiftLeft, BitVec.toNat_setWidth, Nat.mod_eq_of_lt narrow, Nat.shiftLeft_eq,
    Nat.mul_comm, Nat.mod_eq_of_lt placed, hx, Nat.or_comm, Nat.add_comm, Nat.two_pow_add_eq_or_of_lt above]

/-- An assembled word by its value, each field weighed by its place. -/
theorem assembleWord_eq_ofNat (op : Op) (f v : Bool) (idx dat : BitVec 8) (n : BitVec 4) :
    assembleWord op f v idx dat n =
      BitVec.ofNat 32 (op.code.toNat + 2 ^ 4 * f.toNat + 2 ^ 5 * v.toNat + 2 ^ 8 * idx.toNat + 2 ^ 16 * dat.toNat +
        2 ^ 24 * n.toNat) := by
  have code : (op.code.setWidth 32).toNat = op.code.toNat := by rw [BitVec.toNat_setWidth]; omega
  have flag := toNat_or_placed code (BitVec.ofBool f) (p := 4) (by omega) (by decide)
  have value := toNat_or_placed flag (BitVec.ofBool v) (p := 5) (by omega) (by decide)
  have index := toNat_or_placed value idx (p := 8) (by omega) (by decide)
  have data := toNat_or_placed index dat (p := 16) (by omega) (by decide)
  have length := toNat_or_placed data n (p := 24) (by omega) (by decide)
  rw [BitVec.toNat_ofBool, BitVec.toNat_ofBool] at length
  rw [← length, BitVec.ofNat_toNat, BitVec.setWidth_eq, assembleWord]

/-- A word without DATA and N, by its value. -/
theorem assembleWord_idx_eq_ofNat (op : Op) (f v : Bool) {c : Nat} (hc : c < 256) :
    assembleWord op f v (BitVec.ofNat 8 c) 0 0 =
      BitVec.ofNat 32 (op.code.toNat + 16 * f.toNat + 32 * v.toNat + 256 * c) := by
  rw [assembleWord_eq_ofNat, BitVec.toNat_ofNat, Nat.mod_eq_of_lt hc]
  rfl

/-- The packed number is the sum of the elements, each weighed by its place. -/
theorem packNat_eq_sum (vs : List Bool) :
    packNat vs = ((List.range vs.length).map fun k => (vs.getD k false).toNat * 2 ^ k).sum := by
  induction vs with
  | nil => rfl
  | cons v vs ih =>
    rw [packNat, ih, List.length_cons, List.range_succ_eq_map, List.map_cons, List.sum_cons, List.map_map,
      ← List.sum_map_mul_left]
    simp [Function.comp_def, pow_succ', mul_left_comm]

theorem packNat_lt (vs : List Bool) : packNat vs < 2 ^ vs.length := by
  induction vs with
  | nil => simp [packNat]
  | cons v vs ih =>
    have := v.toNat_lt
    rw [packNat, List.length_cons, pow_succ']
    omega

theorem toNat_packBits {vs : List Bool} (h : vs.length ≤ 8) : (packBits vs).toNat = packNat vs := by
  have bound : packNat vs < 2 ^ 8 := lt_of_lt_of_le (packNat_lt vs) (Nat.pow_le_pow_right (by omega) h)
  rw [packBits, BitVec.toNat_ofNat, Nat.mod_eq_of_lt bound]

/-- SETBYTE's word, by its value. -/
theorem encode_setByte_eq_ofNat {vals : List Bool} (le : Bool) (h : vals.length ≤ 8) :
    encode (.setByte vals le) =
      BitVec.ofNat 32 (4 + 16 * le.toNat + packNat vals * 2 ^ 16 + vals.length * 2 ^ 24) := by
  have len : (BitVec.ofNat 4 vals.length).toNat = vals.length := by rw [BitVec.toNat_ofNat]; omega
  rw [encode, assembleWord_eq_ofNat, toNat_packBits h, len, Nat.mul_comm _ (packNat vals), Nat.mul_comm _ vals.length]
  rfl

/-- Settles O8: every row's word has the value the table gives. -/
theorem syntaxTableWords : Obligations.SyntaxTableWords := by
  refine ⟨rfl, rfl, rfl, rfl, fun c v hc => ?_, fun vals hv => ?_⟩
  · simp only [encode, BitVec.ofInt_natCast, assembleWord_idx_eq_ofNat _ _ _ hc]
    exact ⟨rfl, rfl, rfl, rfl, rfl, rfl⟩
  · simp only [encode_setByte_eq_ofNat _ hv, packNat_eq_sum]
    exact ⟨rfl, rfl⟩

end Sys2Proof
end

section
/-! PROOFS of the family spec/30_encoding.md: lines of text, read and written (R64, R65). -/

namespace Sys2Proof.Machine

/-! ## Words of a line -/

/-- A character that stands inside a word of a line: no space, tab, comma or brace. -/
def isWordChar (ch : Char) : Bool :=
  !(ch == ' ' || ch == '\t' || ch == ',' || ch.toNat == 123 || ch.toNat == 125)

theorem tokenize_wordChar {ch : Char} (h : isWordChar ch = true) (cs acc : List Char) :
    tokenize (ch :: cs) acc = tokenize cs (ch :: acc) := by
  simp only [isWordChar, Bool.not_eq_true', Bool.or_eq_false_iff, beq_eq_false_iff_ne] at h
  obtain ⟨⟨⟨⟨space, tab⟩, comma⟩, lbrace⟩, rbrace⟩ := h
  simp [tokenize, *]

/-- Word characters are collected, last first. -/
theorem tokenize_append {word : List Char} (h : word.all isWordChar = true) (rest acc : List Char) :
    tokenize (word ++ rest) acc = tokenize rest (word.reverse ++ acc) := by
  induction word generalizing acc with
  | nil => rfl
  | cons ch cs ih =>
    obtain ⟨hch, hcs⟩ : isWordChar ch = true ∧ cs.all isWordChar = true := by simpa using h
    rw [List.cons_append, tokenize_wordChar hch, ih hcs, List.reverse_cons, List.append_assoc, List.singleton_append]

/-- The characters make one word of a line. -/
structure IsWord (cs : List Char) : Prop where
  ne_nil : cs ≠ []
  chars : cs.all isWordChar = true

theorem flushWord_reverse {cs : List Char} (h : cs ≠ []) : flushWord cs.reverse = [.word cs] := by
  unfold flushWord
  split
  · simp_all
  · simp

section
variable {word : List Char} (h : IsWord word)
include h

theorem tokenize_word : tokenize word [] = [.word word] := by
  have := tokenize_append h.chars [] []
  rw [List.append_nil, List.append_nil] at this
  rw [this, tokenize, flushWord_reverse h.ne_nil]

theorem tokenize_word_space (rest : List Char) :
    tokenize (word ++ ' ' :: rest) [] = .word word :: tokenize rest [] := by
  rw [tokenize_append h.chars, List.append_nil, tokenize, if_pos (.inl rfl), flushWord_reverse h.ne_nil,
    List.singleton_append]

theorem tokenize_word_comma (rest : List Char) :
    tokenize (word ++ ',' :: rest) [] = .word word :: .comma :: tokenize rest [] := by
  rw [tokenize_append h.chars, List.append_nil, tokenize, if_neg (by decide), if_pos rfl, flushWord_reverse h.ne_nil,
    List.singleton_append]

theorem tokenize_word_rbrace : tokenize (word ++ [Char.ofNat 125]) [] = [.word word, .rbrace] := by
  rw [tokenize_append h.chars, List.append_nil, tokenize, if_neg (by decide), if_neg (by decide), if_neg (by decide),
    if_pos (by decide), flushWord_reverse h.ne_nil]
  rfl
end

theorem tokenize_space (rest : List Char) : tokenize (' ' :: rest) [] = tokenize rest [] := by
  rw [tokenize, if_pos (.inl rfl)]
  rfl

theorem tokenize_lbrace (rest : List Char) : tokenize (Char.ofNat 123 :: rest) [] = .lbrace :: tokenize rest [] := by
  rw [tokenize, if_neg (by decide), if_neg (by decide), if_pos (by decide)]
  rfl

/-! ## The first word of a line -/

theorem Mnemonic.isWord_text (m : Mnemonic) : IsWord m.text := by
  cases m <;> exact ⟨by decide, by decide⟩

theorem Mnemonic.ofText_text (m : Mnemonic) : Mnemonic.ofText m.text = some m := by
  cases m <;> decide

/-- A line of one word. -/
theorem parseLine_text (m : Mnemonic) : parseLine m.text = parseOperands m [] := by
  rw [parseLine, tokenize_word m.isWord_text]
  simp [Mnemonic.ofText_text]

/-- A line of a first word and its operands. -/
theorem parseLine_text_space (m : Mnemonic) (rest : List Char) :
    parseLine (m.text ++ ' ' :: rest) = parseOperands m (tokenize rest []) := by
  rw [parseLine, tokenize_word_space m.isWord_text]
  simp [Mnemonic.ofText_text]

/-- Settles O10: each first word's line is read by its operands, and the two read theirs alike. -/
theorem pseudoCommandsExpand : Obligations.PseudoCommandsExpand := by
  refine ⟨parseLine_text .clrbyte, fun operands => ⟨?_, ?_⟩⟩
  · exact (parseLine_text_space .inject operands).trans (parseLine_text_space .bflipRaw operands).symm
  · exact (parseLine_text_space .repair operands).trans (parseLine_text_space .setbit operands).symm

/-! ## Operands -/

theorem toNat_of_isDigit {ch : Char} (h : ch.isDigit = true) : 48 ≤ ch.toNat ∧ ch.toNat ≤ 57 := by
  simpa [Char.isDigit, UInt32.le_iff_toNat_le] using h

theorem isWordChar_of_isDigit {ch : Char} (h : ch.isDigit = true) : isWordChar ch = true := by
  obtain ⟨low, high⟩ := toNat_of_isDigit h
  have ne {c : Char} (hc : c.toNat < 48) : ch ≠ c := fun he => absurd low (by rw [he]; omega)
  have space := ne (c := ' ') (by decide)
  have tab := ne (c := '\t') (by decide)
  have comma := ne (c := ',') (by decide)
  have lbrace : ch.toNat ≠ 123 := by omega
  have rbrace : ch.toNat ≠ 125 := by omega
  simp [isWordChar, *]

theorem digitValue_of_isDigit {ch : Char} (h : ch.isDigit = true) :
    digitValue ch = some (ch.toNat - '0'.toNat) ∧ ch.toNat - '0'.toNat < 10 := by
  have range := toNat_of_isDigit h
  have zero : '0'.toNat = 48 := by decide
  exact ⟨if_pos range, by omega⟩

/-- A decimal number's digits have the value the library gives them. -/
theorem parseDigits_eq_ofDigitChars {cs : List Char} (h : ∀ ch ∈ cs, ch.isDigit = true) (acc : Nat) :
    parseDigits 10 cs acc = some (Nat.ofDigitChars 10 cs acc) := by
  induction cs generalizing acc with
  | nil => simp [parseDigits]
  | cons ch cs ih =>
    obtain ⟨value, small⟩ := digitValue_of_isDigit (h ch (by simp))
    simp only [parseDigits, value, if_pos small, Nat.ofDigitChars_cons]
    exact ih (fun c hc => h c (by simp [hc])) _

/-- Digits alone are no hex number. -/
theorem parseNumber_of_isDigit {cs : List Char} (h : ∀ ch ∈ cs, ch.isDigit = true) (hne : cs ≠ []) :
    parseNumber cs = parseDigits 10 cs 0 := by
  unfold parseNumber
  split
  · exact absurd rfl hne
  · exact absurd (h 'x' (by simp)) (by decide)
  · rfl

theorem parseNumber_numberText (n : Nat) : parseNumber (numberText n) = some n := by
  have digits : ∀ ch ∈ numberText n, ch.isDigit = true :=
    fun ch h => Nat.isDigit_of_mem_toDigits (by decide) (by decide) h
  rw [parseNumber_of_isDigit digits Nat.toDigits_ne_nil, parseDigits_eq_ofDigitChars digits, numberText,
    Nat.ofDigitChars_ten_toDigits]

theorem isWord_numberText (n : Nat) : IsWord (numberText n) :=
  ⟨Nat.toDigits_ne_nil, List.all_eq_true.mpr fun _ h =>
    isWordChar_of_isDigit (Nat.isDigit_of_mem_toDigits (by decide) (by decide) h)⟩

theorem isWord_boolText (v : Bool) : IsWord (boolText v) := by
  cases v <;> exact ⟨by decide, by decide⟩

theorem parseBool_boolText (v : Bool) : parseBool (boolText v) = some v := by
  cases v <;> decide

theorem parseOne_numberText (n : Nat) : parseOne (tokenize (numberText n) []) = some n := by
  rw [tokenize_word (isWord_numberText n), parseOne, parseNumber_numberText]

theorem parseTwo_pairText (n : Nat) (v : Bool) :
    parseTwo (tokenize (numberText n ++ ',' :: ' ' :: boolText v) []) = some (n, v) := by
  rw [tokenize_word_comma (isWord_numberText n), tokenize_space, tokenize_word (isWord_boolText v)]
  simp [parseTwo, parseNumber_numberText, parseBool_boolText]

/-- The elements after the first. -/
def moreToks : List Bool → List Tok
  | [] => [.rbrace]
  | v :: vs => .comma :: .word (boolText v) :: moreToks vs

theorem parseMore_moreToks (vs : List Bool) : parseMore (moreToks vs) = some vs := by
  induction vs with
  | nil => rfl
  | cons v vs ih => simp [moreToks, parseMore, parseBool_boolText, ih]

theorem tokenize_elementsText (v : Bool) (vs : List Bool) :
    tokenize (elementsText (v :: vs) ++ [Char.ofNat 125]) [] = .word (boolText v) :: moreToks vs := by
  induction vs generalizing v with
  | nil => exact tokenize_word_rbrace (isWord_boolText v)
  | cons u us ih =>
    rw [elementsText, List.append_assoc, List.cons_append, tokenize_word_comma (isWord_boolText v), ih, moreToks]
    simp

theorem parseSequence_elementsText (vs : List Bool) :
    parseSequence (tokenize (Char.ofNat 123 :: (elementsText vs ++ [Char.ofNat 125])) []) = some vs := by
  rw [tokenize_lbrace]
  cases vs with
  | nil => rfl
  | cons v vs =>
    rw [tokenize_elementsText]
    simp [parseSequence, parseBool_boolText, parseMore_moreToks]

/-- An index that has a word is not negative. -/
theorem toNat_of_indexFits {idx : Int} (h : Instr.indexFits idx = true) : (idx.toNat : Int) = idx := by
  simp only [Instr.indexFits, Bool.and_eq_true, decide_eq_true_eq] at h
  omega

/-- Settles O9: the first word names the command's form, and each operand is read back from its text. -/
theorem parseOfWrite : Obligations.ParseOfWrite := by
  intro instr hwf
  cases instr with
  | getByte ovr =>
    cases ovr with
    | false => exact parseLine_text .getbyte
    | true => exact parseLine_text .getbyteOvr
  | setBit idx v =>
    have index : (idx.toNat : Int) = idx := toNat_of_indexFits hwf
    simp [writeLine, pairText, parseLine_text_space, parseOperands, parseTwo_pairText, index]
  | getBit idx ovr =>
    have index : (idx.toNat : Int) = idx := toNat_of_indexFits hwf
    cases ovr <;> simp [writeLine, parseLine_text_space, parseOperands, parseOne_numberText, index]
  | setByte vals le =>
    cases le <;> simp [writeLine, sequenceText, parseLine_text_space, parseOperands, parseSequence_elementsText]
  | chkByte => exact parseLine_text .chkbyte
  | recalc => exact parseLine_text .recalc
  | bget c ovr => cases ovr <;> simp [writeLine, parseLine_text_space, parseOperands, parseOne_numberText]
  | bset c v => simp [writeLine, pairText, parseLine_text_space, parseOperands, parseTwo_pairText]
  | bflip c honor => cases honor <;> simp [writeLine, parseLine_text_space, parseOperands, parseOne_numberText]
  | bchk c => simp [writeLine, parseLine_text_space, parseOperands, parseOne_numberText]

end Sys2Proof.Machine
end

section
/-! PROOFS of the family spec/30_encoding.md: the responses to the words sent (R50, R55) and the refusals that depend on
the configuration (R57, R58). -/

namespace Sys2Proof.Machine

/-! ## What a word does at a step (R50, R60, R62) -/

/-- How a word ends on a block: refused at decode time, or as its command ends. -/
def wordOutcome (w : Word) (b : Block) : CmdOut :=
  match decode w with
  | .error r => .refuse r
  | .ok instr => outcome instr b

/-- A step with a word sent ends as the word's outcome says. -/
theorem step_word {s : State} {w : Word} {rest : List HostEvent} (h : s.host = .command w :: rest) :
    step s = .next ((s.taken rest).complete (wordOutcome w s.block)) := by
  unfold wordOutcome
  cases hd : decode w with
  | error r => exact step_undecodable h hd
  | ok instr => exact step_command h hd

/-- Settles O19: both are the command's end on the block, with the word off the port. -/
theorem stepRunsDecodedCommand : Obligations.StepRunsDecodedCommand := by
  intro s w instr rest h hd
  rw [step_command h hd, exec_eq_complete]
  rfl

/-- Settles O20: a refusal, on the state with the word off the port. -/
theorem stepRefusesUndecodableWord : Obligations.StepRefusesUndecodableWord :=
  fun _ _ _ _ h hd => step_undecodable h hd

/-- The first word's response comes first, and the other words act on the block it leaves. -/
theorem observe_cons (w : Word) (ws : List Word) (s : State) :
    observe (w :: ws) s =
      ((wordOutcome w s.block).response :: (observe ws ((s.taken []).complete (wordOutcome w s.block))).1,
        (observe ws ((s.taken []).complete (wordOutcome w s.block))).2) := by
  have ends : step { s with host := [.command w] } = .next ((s.taken []).complete (wordOutcome w s.block)) :=
    step_word rfl
  rw [observe, ends]
  simp only [State.complete_response, Option.toList_some, List.singleton_append]

theorem observe_length (ws : List Word) (s : State) : (observe ws s).1.length = ws.length := by
  induction ws generalizing s with
  | nil => rfl
  | cons w ws ih => rw [observe_cons, List.length_cons, List.length_cons, ih]

/-- The k-th response is that of the k-th word on the block that the words before it left (R44). -/
theorem observe_getElem? {ws : List Word} {k : Nat} {w : Word} (h : ws[k]? = some w) (s : State) :
    (observe ws s).1[k]? = some (wordOutcome w (observe (ws.take k) s).2).response := by
  induction ws generalizing s k with
  | nil => simp at h
  | cons v ws ih =>
    cases k with
    | zero =>
      obtain rfl : v = w := by simpa using h
      rw [observe_cons]
      rfl
    | succ k =>
      rw [List.getElem?_cons_succ] at h
      rw [List.take_succ_cons, observe_cons, observe_cons, List.getElem?_cons_succ, ih h]

/-- Settles O24: the responses are the words' outcomes in order, and a step answers the word's outcome. -/
theorem oneResponsePerCommand : Obligations.OneResponsePerCommand := by
  intro inp ws
  refine ⟨observe_length ws _, fun k w h => ?_⟩
  exact ⟨_, _, step_word rfl, State.complete_response _ _, observe_getElem? h _⟩

/-! ## Which commands are refused (R57, R58) -/

theorem Block.requireByte_eq_refuse {b : Block} {o : CmdOut} {r : Reason} :
    b.requireByte o = .refuse r ↔
      b.cfg.kind = .bitUnit ∧ r = .wrongUnit ∨ b.cfg.kind = .byteUnit ∧ o = .refuse r := by
  cases h : b.cfg.kind <;> simp [Block.requireByte, h, eq_comm]

theorem Block.requireByteParity_eq_refuse {b : Block} {o : CmdOut} {r : Reason} :
    b.requireByteParity o = .refuse r ↔
      b.cfg.byteParity = false ∧ r = .capabilityAbsent ∨ b.cfg.byteParity = true ∧ o = .refuse r := by
  cases h : b.cfg.byteParity <;> simp [Block.requireByteParity, h, eq_comm]

theorem requireIndex_eq_refuse {idx : Int} {o : CmdOut} {r : Reason} :
    requireIndex idx o = .refuse r ↔ indexInRange idx = true ∧ o = .refuse r := by
  cases h : indexInRange idx <;> simp [requireIndex, h]

/-- A checked read is not refused. -/
theorem Block.returnBit_ne_refuse {b : Block} {e : Except CmdError Bool} {r : Reason} :
    b.returnBit e ≠ .refuse r := by
  cases e <;> simp [Block.returnBit]

theorem Block.returnByte_ne_refuse {b : Block} {ovr : Bool} {r : Reason} : b.returnByte ovr ≠ .refuse r := by
  unfold Block.returnByte
  split <;> simp

/-- The command acts directly on the cell with selector `c` (R35). -/
def actsOn (instr : Instr) (c : Nat) : Prop :=
  ∃ v, instr = .bget c v ∨ instr = .bset c v ∨ instr = .bflip c v ∨ instr = .bchk c

/-- What a refusal for each reason says of the command and the block (R57, R58, R98). -/
def RefusedFor (instr : Instr) (b : Block) : Reason → Prop
  | .badLength => ∃ vals le, instr = .setByte vals le ∧ Config.maxElements < vals.length
  | .wrongUnit => byteOnly instr = true ∧ b.cfg.kind = .bitUnit
  | .badSelector => ∃ c, actsOn instr c ∧ b.selected c = none
  | .capabilityAbsent =>
    (instr = .chkByte ∨ instr = .recalc) ∧ b.cfg.kind = .byteUnit ∧ b.cfg.byteParity = false ∨
      ∃ c x, instr = .bchk c ∧ b.selected c = some x ∧ x.shadow = none
  | .illegalOpcode | .reservedBits | .strayData => False

/-- Why a command is refused. -/
theorem refusedFor_of_outcome {instr : Instr} {b : Block} {r : Reason} (h : outcome instr b = .refuse r) :
    RefusedFor instr b r := by
  cases instr with
  | getByte ovr =>
    rcases Block.requireByte_eq_refuse.mp h with ⟨hk, rfl⟩ | ⟨-, h⟩
    · exact ⟨rfl, hk⟩
    · split at h
      · cases h
      · cases h
      · exact absurd h Block.returnByte_ne_refuse
  | setBit idx v =>
    rcases Block.requireByte_eq_refuse.mp h with ⟨hk, rfl⟩ | ⟨-, h⟩
    · exact ⟨rfl, hk⟩
    · cases (requireIndex_eq_refuse.mp h).2
  | getBit idx ovr =>
    rcases Block.requireByte_eq_refuse.mp h with ⟨hk, rfl⟩ | ⟨-, h⟩
    · exact ⟨rfl, hk⟩
    · have read := (requireIndex_eq_refuse.mp h).2
      split at read
      · cases read
      · exact absurd read Block.returnBit_ne_refuse
  | setByte vals le =>
    simp only [outcome, cmdSetByte] at h
    split at h
    next long =>
      cases h
      exact ⟨vals, le, rfl, long⟩
    next =>
      rcases Block.requireByte_eq_refuse.mp h with ⟨hk, rfl⟩ | ⟨-, h⟩
      · exact ⟨rfl, hk⟩
      · cases h
  | chkByte =>
    rcases Block.requireByte_eq_refuse.mp h with ⟨hk, rfl⟩ | ⟨hk, h⟩
    · exact ⟨rfl, hk⟩
    · rcases Block.requireByteParity_eq_refuse.mp h with ⟨hp, rfl⟩ | ⟨-, h⟩
      · exact .inl ⟨.inl rfl, hk, hp⟩
      · exact absurd h Block.returnBit_ne_refuse
  | recalc =>
    rcases Block.requireByte_eq_refuse.mp h with ⟨hk, rfl⟩ | ⟨hk, h⟩
    · exact ⟨rfl, hk⟩
    · rcases Block.requireByteParity_eq_refuse.mp h with ⟨hp, rfl⟩ | ⟨-, h⟩
      · exact .inl ⟨.inr rfl, hk, hp⟩
      · cases h
  | bget c ovr =>
    simp only [outcome, cmdBget] at h
    split at h
    next absent =>
      cases h
      exact ⟨c, ⟨ovr, .inl rfl⟩, absent⟩
    next => exact absurd h Block.returnBit_ne_refuse
  | bset c v =>
    simp only [outcome, cmdBset] at h
    split at h <;> cases h
    next absent => exact ⟨c, ⟨v, .inr (.inl rfl)⟩, absent⟩
  | bflip c honor =>
    simp only [outcome, cmdBflip] at h
    split at h <;> cases h
    next absent => exact ⟨c, ⟨honor, .inr (.inr (.inl rfl))⟩, absent⟩
  | bchk c =>
    simp only [outcome, cmdBchk] at h
    split at h
    next absent =>
      cases h
      exact ⟨c, ⟨false, .inr (.inr (.inr rfl))⟩, absent⟩
    next x hx =>
      split at h <;> cases h
      next unshadowed => exact .inr ⟨c, x, rfl, hx, Option.map_eq_none_iff.mp unshadowed⟩

/-- R99 at the word interface: status 3, `rdata = 0x00`, the block unchanged. -/
theorem exec_of_refuse {instr : Instr} {s : State} {r : Reason} (h : outcome instr s.block = .refuse r) :
    ∃ t, exec instr s = .next t ∧ t.response = some { status := 3, rdata := 0 } ∧ t.block = s.block :=
  ⟨s.refuse r, by rw [exec_eq_complete, h, State.complete_refuse], rfl, rfl⟩

/-- On a Bit unit a Byte command that has a word is refused before anything else is looked at (R57, R100). -/
theorem outcome_wrongUnit {instr : Instr} {b : Block} (hwf : instr.wf = true) (hk : b.cfg.kind = .bitUnit)
    (hbyte : byteOnly instr = true) : outcome instr b = .refuse .wrongUnit := by
  cases instr with
  | setByte vals le =>
    have short : ¬ vals.length > Config.maxElements := Nat.not_lt.mpr (of_decide_eq_true hwf)
    exact (if_neg short).trans (Block.requireByte_bit hk _)
  | getByte | setBit | getBit | chkByte | recalc => exact Block.requireByte_bit hk _
  | bget | bset | bflip | bchk => cases hbyte

/-- Settles O30: Byte commands are refused on a Bit unit, and only they for that reason. -/
theorem wrongUnitRefusals : Obligations.WrongUnitRefusals := by
  intro instr s hwf
  refine ⟨fun hk hbyte => ?_, fun hbit h => ?_⟩
  · have refused := outcome_wrongUnit hwf hk hbyte
    exact ⟨refused, exec_of_refuse refused⟩
  · obtain ⟨hbyte, -⟩ : byteOnly instr = true ∧ s.block.cfg.kind = .bitUnit := refusedFor_of_outcome h
    rw [hbit] at hbyte
    cases hbyte

/-- CHKBYTE and RECALC need the byte-parity cell (R58). -/
theorem outcome_without_byteParity {instr : Instr} {b : Block} (hi : instr = .chkByte ∨ instr = .recalc)
    (hk : b.cfg.kind = .byteUnit) (hp : b.cfg.byteParity = false) : outcome instr b = .refuse .capabilityAbsent := by
  rcases hi with rfl | rfl <;>
    exact (Block.requireByte_byte hk _).trans (Block.requireByteParity_off hp _)

/-- BCHK needs a shadow (R58, R70). -/
theorem outcome_bchk_unshadowed {b : Block} {c : Nat} {x : Cell} (hx : b.selected c = some x) (hs : x.shadow = none) :
    outcome (.bchk c) b = .refuse .capabilityAbsent := by
  simp [outcome, cmdBchk, hx, Cell.check, hs]

/-- A direct command needs a selector in the unit's space (R35, R58). -/
theorem outcome_badSelector {instr : Instr} {b : Block} {c : Nat} (hi : actsOn instr c) (hc : b.selected c = none) :
    outcome instr b = .refuse .badSelector := by
  obtain ⟨v, rfl | rfl | rfl | rfl⟩ := hi
  · simp [outcome, cmdBget, hc]
  · simp [outcome, cmdBset, hc]
  · simp [outcome, cmdBflip, hc]
  · simp [outcome, cmdBchk, hc]

/-- In form, the selectors without a cell are those outside the space (R35). -/
theorem Block.selected_eq_none_iff {b : Block} (hw : b.wf = true) {c : Nat} :
    b.selected c = none ↔ b.inSpace c = false := by
  refine ⟨fun h => ?_, Block.selected_of_not_inSpace⟩
  by_contra inside
  rw [Bool.not_eq_false] at inside
  obtain ⟨x, hx⟩ := Option.isSome_iff_exists.mp ((selectorSpaceIsPresence b c hw).1.mp inside)
  rw [Block.selected_eq_some.mpr ⟨inside, hx⟩] at h
  cases h

/-- Settles O31: each reason says what it needs, and each condition is checked where its command begins. -/
theorem capabilityRefusals : Obligations.CapabilityRefusals := by
  intro s instr hw
  refine ⟨⟨fun h => ?_, fun h => ?_⟩, ⟨fun h => ?_, fun h => ?_⟩, fun r h => exec_of_refuse h⟩
  · rcases refusedFor_of_outcome h with unit | ⟨c, x, rfl, hx, hs⟩
    · exact .inl unit
    · obtain ⟨inside, cell⟩ := Block.selected_eq_some.mp hx
      exact .inr ⟨c, x, rfl, inside, cell, hs⟩
  · rcases h with ⟨hi, hk, hp⟩ | ⟨c, x, rfl, inside, cell, hs⟩
    · exact outcome_without_byteParity hi hk hp
    · exact outcome_bchk_unshadowed (Block.selected_eq_some.mpr ⟨inside, cell⟩) hs
  · obtain ⟨c, ⟨v, hi⟩, absent⟩ := refusedFor_of_outcome h
    exact ⟨c, v, hi, (Block.selected_eq_none_iff hw).mp absent⟩
  · obtain ⟨c, v, hi, outside⟩ := h
    exact outcome_badSelector ⟨v, hi⟩ (Block.selected_of_not_inSpace outside)

end Sys2Proof.Machine
end

section
/-! PROOFS of the family spec/40_bit_cell.md: the cell primitives and the direct cell commands (R66 to R76). -/

namespace Sys2Proof.Machine

/-! ## The cell primitives: agreement and flips (R66 to R70) -/

/-- A cell agrees when its shadow, where there is one, equals its data (R30). -/
theorem Cell.synced_iff (x : Cell) : x.synced = true ↔ x.shadow = none ∨ x.shadow = some x.data := by
  cases h : x.shadow with
  | none => simp [Cell.synced, h]
  | some sh => simp only [Cell.synced, h, beq_iff_eq, reduceCtorEq, false_or, Option.some.injEq, eq_comm (a := sh)]

/-- A cell disagrees when it has a shadow that is the complement of its data. -/
theorem Cell.synced_eq_false_iff (x : Cell) : x.synced = false ↔ x.shadow = some (!x.data) := by
  cases h : x.shadow with
  | none => simp [Cell.synced, h]
  | some sh => simp only [Cell.synced, h, Option.some.injEq, beq_eq_false_iff_ne, Bool.eq_not, ne_comm]

/-- On a cell with a shadow, the check answers the cell's agreement (R70). -/
theorem Cell.check_of_hasShadow {x : Cell} (h : x.hasShadow = true) : x.check = some x.synced := by
  obtain ⟨sh, hs⟩ := Option.isSome_iff_exists.mp h
  simp [Cell.check, Cell.synced, hs]

/-- A clean flip keeps a cell's agreement or disagreement as it was (R76, law 5). -/
@[simp] theorem Cell.synced_flip_clean (x : Cell) : (x.flip true).synced = x.synced := by
  cases h : x.shadow <;> simp [Cell.synced, h]

/-- A raw flip of a cell with a shadow turns agreement into disagreement and back (R69). -/
theorem Cell.synced_flip_raw {x : Cell} (h : x.hasShadow = true) : (x.flip false).synced = !x.synced := by
  obtain ⟨sh, hs⟩ := Option.isSome_iff_exists.mp h
  simp only [Cell.synced, Cell.flip_data, Cell.flip_shadow, hs, Bool.false_eq_true, if_false]
  cases x.data <;> cases sh <;> rfl

/-- Two equal flips restore the cell (R76, law 4). -/
theorem Cell.flip_comp_flip (honor : Bool) : Cell.flip honor ∘ Cell.flip honor = id := by
  funext x
  obtain ⟨d, sh⟩ := x
  cases honor <;> cases sh <;> simp [Cell.flip]

/-! ## The selected cell -/

theorem Block.modifyCell_id (b : Block) (c : Nat) : b.modifyCell c id = b := by
  unfold Block.modifyCell
  split <;> simp

/-- Two equal flips of one cell restore the block. -/
theorem Block.flip_flip (b : Block) (c : Nat) (honor : Bool) :
    (b.modifyCell c (Cell.flip honor)).modifyCell c (Cell.flip honor) = b := by
  rw [Block.modifyCell_modifyCell, Cell.flip_comp_flip, Block.modifyCell_id]

/-- Replacing the selected cell leaves it selected. -/
theorem Block.selected_modifyCell {b : Block} {c : Nat} {x : Cell} (h : b.selected c = some x) (f : Cell → Cell) :
    (b.modifyCell c f).selected c = some (f x) := by
  obtain ⟨inside, cell⟩ := Block.selected_eq_some.mp h
  exact Block.selected_eq_some.mpr ⟨by simpa using inside, by simp [Block.cell?_modifyCell, cell]⟩

/-! ## How a direct command on a selected cell ends (R72 to R75) -/

section
variable {b : Block} {c : Nat} {x : Cell} (h : b.selected c = some x)
include h

theorem outcome_bget_ok {ovr : Bool} (agrees : (ovr || x.synced) = true) :
    outcome (.bget c ovr) b = .ret (.bit x.data) b := by
  simp only [outcome, cmdBget, h, Cell.get_ok agrees, Block.returnBit]

theorem outcome_bget_mismatch (differs : x.synced = false) :
    outcome (.bget c false) b = .raise .parityMismatch := by
  rcases Cell.get_cases false x with ⟨agrees, -⟩ | ⟨-, raised⟩
  · simp [differs] at agrees
  · simp only [outcome, cmdBget, h, raised, Block.returnBit]

theorem outcome_bset (v : Bool) : outcome (.bset c v) b = .ret .none (b.modifyCell c (Cell.set v)) := by
  simp only [outcome, cmdBset, h]

theorem outcome_bflip (honor : Bool) :
    outcome (.bflip c honor) b = .ret .none (b.modifyCell c (Cell.flip honor)) := by
  simp only [outcome, cmdBflip, h]

theorem outcome_bchk (shadowed : x.hasShadow = true) : outcome (.bchk c) b = .ret (.bit x.synced) b := by
  simp only [outcome, cmdBchk, h, Cell.check_of_hasShadow shadowed]

end

/-! ## At the word interface -/

theorem exec_of_ret {instr : Instr} {s : State} {r : Result} {b : Block} (h : outcome instr s.block = .ret r b) :
    exec instr s = .next (s.succeed r b) := by
  rw [exec_eq_complete, h, State.complete_ret]

theorem exec_of_raise {instr : Instr} {s : State} {e : CmdError} (h : outcome instr s.block = .raise e) :
    exec instr s = .next (s.raise e) := by
  rw [exec_eq_complete, h, State.complete_raise]

/-- A bit in `rdata` is zero-extended (R61). -/
theorem bitRdata_eq_ofNat (v : Bool) : bitRdata v = BitVec.ofNat 8 v.toNat := by
  cases v <;> rfl

/-- A command that ends by replacing one cell answers status 0 without data and leaves the configuration, the mark, the
host's port and every other cell as they were (R71). -/
theorem exec_modifyCell_frame {instr : Instr} {s : State} {c : Nat} {f : Cell → Cell} {x : Cell}
    (ho : outcome instr s.block = .ret .none (s.block.modifyCell c f)) (hx : s.block.cell? c = some x) :
    ∃ t, exec instr s = .next t ∧ t.response = some { status := 0, rdata := 0 } ∧ t.mark = s.mark ∧
      t.host = s.host ∧ t.block.cfg = s.block.cfg ∧ t.block.cell? c = some (f x) ∧
      ∀ k, k ≠ c → t.block.cell? k = s.block.cell? k :=
  ⟨_, exec_of_ret ho, rfl, rfl, rfl, Block.modifyCell_cfg .., by simp [Block.cell?_modifyCell, hx],
    fun k hk => by simp [Block.cell?_modifyCell, hk]⟩

/-- Everything BFLIP can do to the block: nothing, for want of a selected cell, or the flip of that cell (R74). -/
theorem exec_bflip_block {s t : State} {c : Nat} {honor : Bool} (h : exec (.bflip c honor) s = .next t) :
    (s.block.selected c = none ∧ t.block = s.block) ∨
      ∃ x, s.block.selected c = some x ∧ t.block = s.block.modifyCell c (Cell.flip honor) := by
  cases hx : s.block.selected c with
  | none =>
    rw [exec_eq_complete, outcome_badSelector ⟨honor, .inr (.inr (.inl rfl))⟩ hx] at h
    cases h
    exact .inl ⟨rfl, rfl⟩
  | some x =>
    rw [exec_of_ret (outcome_bflip hx honor)] at h
    cases h
    exact .inr ⟨x, rfl, rfl⟩

/-! ## What each command does (R66 to R70) -/

/-- Settles O37: the read completes when the cell agrees or the read is an override, and raises otherwise. -/
theorem bgetCheckedRead : Obligations.BgetCheckedRead := by
  intro s c ovr x inside cell
  have present := Block.selected_eq_some.mpr ⟨inside, cell⟩
  refine ⟨fun readable => ?_, fun plain differs => ?_⟩
  · have agrees : (ovr || x.synced) = true := by rwa [Bool.or_eq_true, Cell.synced_iff]
    rw [exec_of_ret (outcome_bget_ok present agrees), ← bitRdata_eq_ofNat]
    rfl
  · subst plain
    exact exec_of_raise (outcome_bget_mismatch present (x.synced_eq_false_iff.mpr differs))

/-- Settles O38: the cell is replaced by the trusted write of it. -/
theorem bsetTrustedWrite : Obligations.BsetTrustedWrite := by
  intro s c v x inside cell
  obtain ⟨t, run, resp, mark, host, cfg, written, others⟩ :=
    exec_modifyCell_frame (outcome_bset (Block.selected_eq_some.mpr ⟨inside, cell⟩) v) cell
  refine ⟨t, run, resp, mark, host, cfg, ⟨x.set v, written, rfl, fun absent => ?_, fun shadowed => ?_⟩, others⟩
  · simp [absent]
  · obtain ⟨sh, hs⟩ := Option.isSome_iff_exists.mp shadowed
    simp [hs]

/-- Settles O39: the cell is replaced by its flip. -/
theorem bflipInverts : Obligations.BflipInverts := by
  intro s c honor x inside cell
  obtain ⟨t, run, resp, mark, host, cfg, written, others⟩ :=
    exec_modifyCell_frame (outcome_bflip (Block.selected_eq_some.mpr ⟨inside, cell⟩) honor) cell
  refine ⟨t, run, resp, mark, host, cfg, ⟨x.flip honor, written, rfl, fun kept => ?_, fun sh honored hs => ?_⟩, others⟩
  · rcases kept with raw | absent
    · simp [raw]
    · simp [absent]
  · simp [honored, hs]

/-- Settles O40: BCHK answers the cell's agreement. -/
theorem bchkReportsAgreement : Obligations.BchkReportsAgreement := by
  intro s c d sh inside cell
  rw [exec_of_ret (outcome_bchk (Block.selected_eq_some.mpr ⟨inside, cell⟩) rfl)]
  simp only [State.succeed, okResponse, Result.rdata, bitRdata, Cell.synced, beq_iff_eq, Status.code]

/-! ## Laws of the direct commands (R76) -/

/-- Settles O41: after the trusted write the cell agrees, so the read answers it, with and without override. -/
theorem bsetBgetRoundTrip : Obligations.BsetBgetRoundTrip := by
  intro s c v ovr x inside cell
  have present := Block.selected_eq_some.mpr ⟨inside, cell⟩
  have written := Block.selected_modifyCell present (Cell.set v)
  refine ⟨_, _, exec_of_ret (outcome_bset present v), exec_of_ret (outcome_bget_ok written (by simp)), ?_⟩
  rw [← bitRdata_eq_ofNat]
  rfl

/-- Settles O42: the trusted write makes the cell agree, and the raw flip after it makes it disagree. -/
theorem rawFlipDetected : Obligations.RawFlipDetected := by
  intro s c v x inside cell shadowed
  have present := Block.selected_eq_some.mpr ⟨inside, cell⟩
  have written := Block.selected_modifyCell present (Cell.set v)
  have flipped := Block.selected_modifyCell written (Cell.flip false)
  have shadowed_written : (x.set v).hasShadow = true := by simpa using shadowed
  have shadowed_flipped : ((x.set v).flip false).hasShadow = true := by simpa using shadowed
  have differs : ((x.set v).flip false).synced = false := by simp [Cell.synced_flip_raw shadowed_written]
  refine ⟨_, _, _, _, _, exec_of_ret (outcome_bset present v), exec_of_ret (outcome_bchk written shadowed_written), ?_,
    exec_of_ret (outcome_bflip written false), exec_of_ret (outcome_bchk flipped shadowed_flipped), ?_,
    exec_of_raise (outcome_bget_mismatch flipped differs), rfl⟩
  · rw [Cell.synced_set]
    rfl
  · rw [differs]
    rfl

/-- Settles O43: without a selected cell neither flip writes; with one, both flip it, and one clean flip keeps its
agreement. -/
theorem flipTwiceRestores : Obligations.FlipTwiceRestores := by
  intro s t u c honor first second
  rcases exec_bflip_block first with ⟨absent, same⟩ | ⟨x, present, flipped⟩
  · rcases exec_bflip_block second with ⟨-, same'⟩ | ⟨y, present', -⟩
    · exact ⟨same'.trans same, fun k _ => by rw [same]⟩
    · rw [same, absent] at present'
      cases present'
  · have present' := flipped ▸ Block.selected_modifyCell present (Cell.flip honor)
    rcases exec_bflip_block second with ⟨absent, -⟩ | ⟨y, -, flipped'⟩
    · rw [absent] at present'
      cases present'
    · refine ⟨by rw [flipped', flipped, Block.flip_flip], fun k clean => ?_⟩
      subst clean
      rw [flipped, Block.cell?_modifyCell]
      split
      · simp [Function.comp_def]
      · rfl

end Sys2Proof.Machine
end

section
/-! PROOFS of the family spec/41_byte_unit.md: byte parity, consistency and the writing commands (R77 to R80, R83, R86,
R88, R89, R92). -/

namespace Sys2Proof.Machine

/-! ## Byte parity (R77, R79) -/

theorem popcount_eq_count (vs : List Bool) : popcount vs = vs.count true := by
  induction vs with
  | nil => rfl
  | cons v vs ih => cases v <;> simp [popcount, ih, Nat.add_comm]

theorem genBP_eq_decide (n : Nat) : genBP n = decide (n % 2 = 0) := rfl

/-- One value more turns the generated parity over when it is `true` (R79). -/
theorem genBP_popcount_cons (v : Bool) (vs : List Bool) :
    genBP (popcount (v :: vs)) = (v ^^ genBP (popcount vs)) := by
  cases v with
  | false => simp [popcount]
  | true =>
    simp only [popcount, genBP_eq_decide, Bool.toNat_true, Bool.true_xor, ← decide_not, decide_eq_decide]
    omega

/-- The exclusive or of values, and of a start value, in terms of the generated parity. -/
theorem foldl_xor_eq (bits : List Bool) (acc : Bool) :
    bits.foldl xor acc = (acc ^^ !genBP (popcount bits)) := by
  induction bits generalizing acc with
  | nil => simp [popcount, genBP_eq_decide]
  | cons v bits ih => rw [List.foldl_cons, ih, genBP_popcount_cons, Bool.xor_assoc, Bool.xor_not, Bool.xor_not]

/-- A value agrees with the generated parity of others exactly when together they hold an odd number of ones (R79). -/
theorem odd_popcount_cons_iff (v : Bool) (vs : List Bool) :
    popcount (v :: vs) % 2 = 1 ↔ v = genBP (popcount vs) := by
  cases v with
  | false => simp [popcount, genBP_eq_decide]
  | true =>
    simp only [popcount, genBP_eq_decide, Bool.toNat_true, eq_comm (a := true), decide_eq_true_eq]
    omega

/-- Settles O45: the exclusive or of the bits, and the count of the bits with their parity value. -/
theorem generatedParityIsXor : Obligations.GeneratedParityIsXor := by
  intro bits
  exact ⟨by rw [foldl_xor_eq, Bool.false_xor, Bool.not_not], (odd_popcount_cons_iff _ bits).mpr rfl⟩

/-- The parity value of a block's raw data (R77, R79). -/
theorem Block.genBP_popRaw (b : Block) : genBP b.popRaw = decide (b.rawData.count true % 2 = 0) := by
  rw [Block.popRaw, popcount_eq_count, genBP_eq_decide]

/-! ## The cells of a Byte unit in form -/

theorem Cfg.kind_of_byteParity {cfg : Cfg} (h : cfg.byteParity = true) : cfg.kind = .byteUnit := by
  cases hk : cfg.kind with
  | byteUnit => rfl
  | bitUnit => rw [Cfg.byteParity_bit hk] at h; cases h

section
variable {b : Block} (hw : b.wf = true)
include hw

/-- The byte-parity cell has no shadow (R19). -/
theorem Block.bp_shadow_of_wf {x : Cell} (hx : b.bp = some x) : x.shadow = none := by
  have shadowless : ¬ x.hasShadow = true := fun has => by
    obtain ⟨-, ne, -⟩ := (Block.hasShadow_of_wf hw (c := 8) hx).mp has
    exact ne rfl
  simpa [Cell.hasShadow] using shadowless

/-- The byte-parity cell is its data. -/
theorem Block.bp_of_wf : b.bp = b.bpData.map fun v => { data := v, shadow := none } := by
  cases hx : b.bp with
  | none => simp [Block.bpData, hx]
  | some x =>
    obtain ⟨d, sh⟩ := x
    obtain rfl : sh = none := Block.bp_shadow_of_wf hw hx
    simp [Block.bpData, hx]

/-- The byte-parity cell always agrees with its shadow, having none. -/
theorem Block.bp_synced_of_wf : b.bp.all Cell.synced = true := by
  rw [Block.bp_of_wf hw]
  cases b.bpData <;> rfl

variable (hk : b.cfg.kind = .byteUnit)
include hk

theorem Block.cells_length_of_byte : b.cells.length = 8 := by
  obtain ⟨hl, -, -⟩ := b.wf_iff.mp hw
  rw [hl, Cfg.cellCount_byte hk]

theorem Block.rawData_length_of_byte : b.rawData.length = 8 := by
  rw [Block.rawData, List.length_map, Block.cells_length_of_byte hw hk]

theorem Block.cell?_of_lt {k : Nat} (h : k < 8) : ∃ x, b.cell? k = some x :=
  Option.isSome_iff_exists.mp ((Block.cell?_isSome_of_wf hw k).mpr (.inl (by rwa [Cfg.cellCount_byte hk])))

/-- A data cell has a shadow exactly when `bitParity` is there (R18, R20). -/
theorem Block.hasShadow_of_byte {k : Nat} {x : Cell} (h : k < 8) (hx : b.cell? k = some x) :
    x.hasShadow = b.cfg.bitParity := by
  rw [Bool.eq_iff_iff, Block.hasShadow_of_wf hw hx, Cfg.cellCount_byte hk]
  simp [h, h.ne, Cfg.shadowed, hk]

/-- What a trusted write leaves in a data cell (R68). -/
theorem Block.set_of_byte {k : Nat} {x : Cell} (h : k < 8) (hx : b.cell? k = some x) (v : Bool) :
    x.set v = { data := v, shadow := if b.cfg.bitParity then some v else none } := by
  rw [← Block.hasShadow_of_byte hw hk h hx]
  obtain ⟨d, sh⟩ := x
  cases sh <;> rfl

/-- The data cells do not all agree exactly when one of them, by its selector, differs from its shadow. -/
theorem Block.exists_differing_cell_iff :
    b.cells.all Cell.synced = false ↔ ∃ k x, k < 8 ∧ b.cell? k = some x ∧ x.shadow = some (!x.data) := by
  have eight := Block.cells_length_of_byte hw hk
  simp only [List.all_eq_false, Bool.not_eq_true, Cell.synced_eq_false_iff]
  constructor
  · rintro ⟨x, hx, differs⟩
    obtain ⟨k, at_k⟩ := List.getElem?_of_mem hx
    have below : k < 8 := eight ▸ (List.getElem?_eq_some_iff.mp at_k).1
    exact ⟨k, x, below, (b.cell?_data below.ne).trans at_k, differs⟩
  · rintro ⟨k, x, below, hx, differs⟩
    exact ⟨x, List.mem_of_getElem? ((b.cell?_data below.ne).symm.trans hx), differs⟩

end

/-! ## The recompute (R80) -/

@[simp] theorem Block.mapCells_cfg (g : List Cell → List Cell) (b : Block) : (b.mapCells g).cfg = b.cfg := rfl
@[simp] theorem Block.mapCells_cells (g : List Cell → List Cell) (b : Block) :
    (b.mapCells g).cells = g b.cells := rfl
@[simp] theorem Block.mapCells_bp (g : List Cell → List Cell) (b : Block) : (b.mapCells g).bp = b.bp := rfl

@[simp] theorem Block.recalcIfEnabled_rawData (b : Block) : b.recalcIfEnabled.rawData = b.rawData := by
  simp [Block.rawData]
@[simp] theorem Block.recalcIfEnabled_popRaw (b : Block) : b.recalcIfEnabled.popRaw = b.popRaw := by
  simp [Block.popRaw]

/-- Where the byte-parity cell is there as `byteParity` says, the recompute writes it, and there is nothing to write
where it is absent. -/
theorem Block.recalcIfEnabled_eq_byteRecalc {b : Block} (hb : b.bp.isSome = b.cfg.byteParity) :
    b.recalcIfEnabled = b.byteRecalc := by
  unfold Block.recalcIfEnabled
  split
  · rfl
  next off =>
    have absent : b.bp = none := by simpa [off] using hb
    have same : b.bp.map (Cell.set (genBP b.popRaw)) = b.bp := by simp [absent]
    rw [Block.byteRecalc, Block.modifyCell, if_pos rfl, same]

/-- The recompute leaves every data cell as it is. -/
theorem Block.cell?_recalcIfEnabled {k : Nat} (h : k ≠ 8) (b : Block) :
    b.recalcIfEnabled.cell? k = b.cell? k := by
  rw [Block.cell?_data _ h, Block.cell?_data _ h, Block.recalcIfEnabled_cells]

/-- The byte-parity cell after a change of the data cells and the recompute: the parity value of the data, where
`byteParity` is there. -/
theorem Block.bp_recalc_mapCells {b : Block} (hw : b.wf = true) (g : List Cell → List Cell) :
    (b.mapCells g).recalcIfEnabled.bp =
      if b.cfg.byteParity then some { data := genBP (b.mapCells g).popRaw, shadow := none } else none := by
  have present := Block.bp_isSome_of_wf hw
  rw [Block.recalcIfEnabled_eq_byteRecalc (by simpa using present), Block.byteRecalc_bp, Block.mapCells_bp,
    ← present, Block.bp_of_wf hw]
  cases b.bpData <;> simp [Cell.set]

/-! ## Consistency (R30, R92) -/

/-- In form, consistency is agreement of the data cells and, with `byteParity`, of the byte tier: the byte-parity cell
has no shadow to differ from. -/
theorem Block.consistent_iff {b : Block} (hw : b.wf = true) :
    b.consistent = true ↔
      b.cells.all Cell.synced = true ∧ (b.cfg.byteParity = true → b.bpData = some (genBP b.popRaw)) := by
  unfold Block.consistent
  rw [Block.bp_synced_of_wf hw]
  cases b.cfg.byteParity <;> simp [genBP]

/-- A change of the data cells that leaves them all in agreement leaves, with the recompute, a consistent block. -/
theorem Block.consistent_recalc_mapCells {b : Block} (hw : b.wf = true) {g : List Cell → List Cell}
    (hg : (g b.cells).all Cell.synced = true) : (b.mapCells g).recalcIfEnabled.consistent = true := by
  unfold Block.consistent
  rw [Block.bp_recalc_mapCells hw, Block.recalcIfEnabled_cells, Block.mapCells_cells, hg, Block.recalcIfEnabled_cfg,
    Block.bpData, Block.bp_recalc_mapCells hw, Block.recalcIfEnabled_popRaw]
  cases h : b.cfg.byteParity <;> simp [h, genBP]

/-- A trusted write of one cell among agreeing cells leaves them in agreement. -/
theorem all_synced_modify_set {xs : List Cell} (h : xs.all Cell.synced = true) (k : Nat) (v : Bool) :
    (xs.modify k (Cell.set v)).all Cell.synced = true := by
  rw [List.all_eq_true] at h ⊢
  intro x hx
  obtain ⟨j, hj⟩ := List.getElem?_of_mem hx
  rw [List.getElem?_modify] at hj
  obtain ⟨y, hy, rfl⟩ := Option.map_eq_some_iff.mp hj
  split
  · exact Cell.synced_set v y
  · exact h y (List.mem_of_getElem? hy)

/-- Cells that were all written by trusted writes agree, whatever they held (R89). -/
theorem all_synced_zipWith_set (vals : List Bool) (xs : List Cell) :
    (List.zipWith Cell.set vals xs).all Cell.synced = true := by
  induction vals generalizing xs with
  | nil => rfl
  | cons v vals ih =>
    cases xs with
    | nil => rfl
    | cons x xs => simpa using ih xs

/-- What a Byte command that completes leaves of a consistent block is consistent. -/
theorem consistent_writtenBlock {instr : Instr} {b : Block} (hi : byteOnly instr = true) (hw : b.wf = true)
    (hc : b.consistent = true) : (writtenBlock instr b).consistent = true := by
  obtain ⟨synced, -⟩ := (Block.consistent_iff hw).mp hc
  cases instr with
  | getByte | getBit | chkByte => exact hc
  | setBit idx v => exact Block.consistent_recalc_mapCells hw (all_synced_modify_set synced _ v)
  | setByte vals le => exact Block.consistent_recalc_mapCells hw (all_synced_zipWith_set _ _)
  | recalc =>
    rw [writtenBlock, ← Block.recalcIfEnabled_eq_byteRecalc (Block.bp_isSome_of_wf hw)]
    exact Block.consistent_recalc_mapCells (g := id) hw synced
  | bget | bset | bflip | bchk => cases hi

/-- Every command keeps the storage's form and the configuration. -/
theorem exec_keeps_form {instr : Instr} {s t : State} (hw : s.block.wf = true) (h : exec instr s = .next t) :
    t.block.wf = true ∧ t.block.cfg = s.block.cfg := by
  rw [exec_eq_complete] at h
  cases h
  rcases s.complete_block_cases (outcome instr s.block) with hb | ⟨r, ho⟩
  · rw [hb]
    exact ⟨hw, rfl⟩
  · exact ⟨outcome_ret_wf ho hw, outcome_ret_cfg ho⟩

/-- Settles O56: a command that does not complete leaves the block, and one that does leaves a consistent one. -/
theorem byteCommandsKeepConsistency : Obligations.ByteCommandsKeepConsistency := by
  intro instr s t sound hi h
  obtain ⟨hw, hk, hc⟩ := sound
  obtain ⟨hw', cfg⟩ := exec_keeps_form hw h
  refine ⟨hw', by rwa [cfg], ?_⟩
  rw [exec_eq_complete] at h
  cases h
  rcases s.complete_block_cases (outcome instr s.block) with hb | ⟨r, ho⟩
  · rwa [hb]
  · rw [eq_writtenBlock_of_outcome_ret ho]
    exact consistent_writtenBlock hi hw hc

/-! ## Placement (R88) -/

/-- The supplied elements in the order of the index positions they take. -/
def inOrder (vals : List Bool) (le : Bool) : List Bool := if le then vals.reverse else vals

@[simp] theorem inOrder_length (vals : List Bool) (le : Bool) : (inOrder vals le).length = vals.length := by
  cases le <;> simp [inOrder]

@[simp] theorem count_inOrder (vals : List Bool) (le v : Bool) : (inOrder vals le).count v = vals.count v := by
  cases le <;> simp [inOrder]

/-- Position `k` takes element `k` in that order, or the padding. -/
theorem placeAt_eq (vals : List Bool) (le : Bool) (k : Nat) : placeAt vals le k = (inOrder vals le).getD k false := by
  unfold placeAt
  split
  next beyond => rw [List.getD_eq_default _ _ (by simpa using beyond)]
  next within =>
    cases le with
    | false => rfl
    | true => simp only [inOrder, if_true, List.getD_eq_getElem?_getD, List.getElem?_reverse (Nat.not_le.mp within)]

theorem placeAt_eq_true_iff (vals : List Bool) (le : Bool) (k : Nat) :
    placeAt vals le k = true ↔ (inOrder vals le)[k]? = some true := by
  rw [placeAt_eq, List.getD_eq_getElem?_getD]
  cases (inOrder vals le)[k]? <;> simp

theorem getElem?_place {k : Nat} (h : k < 8) (vals : List Bool) (le : Bool) :
    (place vals le)[k]? = some (placeAt vals le k) := by
  simp [place, Config.nbits, h]

/-- The elements in order, padded at the high positions. -/
theorem place_eq_append {vals : List Bool} (h : vals.length ≤ 8) (le : Bool) :
    place vals le = inOrder vals le ++ List.replicate (8 - vals.length) false := by
  have length : (place vals le).length = (inOrder vals le ++ List.replicate (8 - vals.length) false).length := by
    simp [Config.nbits, h]
  refine List.ext_getElem? fun k => ?_
  by_cases hk : k < 8
  · rw [getElem?_place hk, placeAt_eq, List.getD_eq_getElem?_getD, List.getElem?_append, inOrder_length]
    split
    next within => simp [within]
    next beyond =>
      rw [List.getElem?_eq_none (by simpa using beyond), List.getElem?_replicate, if_pos (by omega)]
      rfl
  · have eight : (place vals le).length = 8 := place_length vals le
    rw [List.getElem?_eq_none (by omega), List.getElem?_eq_none (by omega)]

/-- Settles O46: the two orders of the elements, padded. -/
theorem placementOfElements : Obligations.PlacementOfElements :=
  fun _ h => ⟨place_eq_append h true, place_eq_append h false⟩

/-- The padding holds no ones. -/
theorem count_place {vals : List Bool} (h : vals.length ≤ 8) (le : Bool) :
    (place vals le).count true = vals.count true := by
  rw [place_eq_append h, List.count_append, count_inOrder, List.count_replicate]
  rfl

/-! ## Writing: SETBIT, SETBYTE, RECALC (R83, R86, R89) -/

theorem indexInRange_natCast {k : Nat} (h : k < 8) : indexInRange k = true := by
  simp [indexInRange, Config.nbits, h]

/-- SETBIT in range completes. -/
theorem outcome_setBit {b : Block} (hk : b.cfg.kind = .byteUnit) {k : Nat} (h : k < 8) (v : Bool) :
    outcome (.setBit k v) b = .ret .none (writtenBlock (.setBit k v) b) := by
  have inRange := indexInRange_natCast h
  rw [outcome, cmdSetBit, Block.requireByte_byte hk, requireIndex_in inRange,
    Block.modifyCell_eq_mapCells (indexInRange_toNat_ne inRange)]
  rfl

/-- SETBYTE of at most eight elements completes. -/
theorem outcome_setByte {b : Block} (hk : b.cfg.kind = .byteUnit) {vals : List Bool} (h : vals.length ≤ 8) (le : Bool) :
    outcome (.setByte vals le) b = .ret .none (writtenBlock (.setByte vals le) b) := by
  have short : ¬ vals.length > Config.maxElements := Nat.not_lt.mpr h
  rw [outcome, cmdSetByte, if_neg short, Block.requireByte_byte hk, Block.setAll_eq_mapCells]
  rfl

/-- RECALC with `byteParity` completes with one trusted write, of the byte-parity cell. -/
theorem outcome_recalc {b : Block} (hp : b.cfg.byteParity = true) :
    outcome .recalc b = .ret .none (b.modifyCell 8 (Cell.set (genBP b.popRaw))) := by
  rw [outcome, cmdRecalc, Block.requireByte_byte (Cfg.kind_of_byteParity hp), Block.requireByteParity_on hp]
  rfl

/-- A change of the data cells with the recompute leaves each data cell as the change does. -/
theorem Block.cell?_recalc_mapCells {k : Nat} (h : k ≠ 8) (g : List Cell → List Cell) (b : Block) :
    (b.mapCells g).recalcIfEnabled.cell? k = (g b.cells)[k]? := by
  rw [Block.cell?_recalcIfEnabled h, Block.cell?_data _ h, Block.mapCells_cells]

/-- Settles O49: cell `k` is replaced by the trusted write of it, and the recompute follows. -/
theorem setBitWritesAndRecomputes : Obligations.SetBitWritesAndRecomputes := by
  intro s k v hw hk h
  obtain ⟨x, hx⟩ := Block.cell?_of_lt hw hk h
  refine ⟨_, exec_of_ret (outcome_setBit hk h v), rfl, rfl, rfl, Block.recalcIfEnabled_cfg _, ?_, fun j hj hne => ?_,
    ?_⟩
  · rw [State.succeed_block, writtenBlock, Block.cell?_recalc_mapCells h.ne, Int.toNat_natCast, List.getElem?_modify_eq,
      ← Block.cell?_data _ h.ne, hx, ← Block.set_of_byte hw hk h hx v]
    rfl
  · rw [State.succeed_block, writtenBlock, Block.cell?_recalc_mapCells hj.ne, Int.toNat_natCast,
      List.getElem?_modify_ne _ _ (Ne.symm hne), Block.cell?_data _ hj.ne]
  · rw [State.succeed_block, writtenBlock, Block.cell?_bpSelector, Block.bp_recalc_mapCells hw, Block.genBP_popRaw,
      Block.recalcIfEnabled_rawData]

/-- What SETBYTE leaves in data cell `k` (R89). -/
theorem Block.cell?_setByte {b : Block} (hw : b.wf = true) (hk : b.cfg.kind = .byteUnit) (vals : List Bool) (le : Bool)
    {k : Nat} (h : k < 8) :
    (writtenBlock (.setByte vals le) b).cell? k =
      some { data := placeAt vals le k, shadow := if b.cfg.bitParity then some (placeAt vals le k) else none } := by
  obtain ⟨x, hx⟩ := Block.cell?_of_lt hw hk h
  rw [writtenBlock, Block.cell?_recalc_mapCells h.ne, List.getElem?_zipWith, getElem?_place h,
    ← Block.cell?_data _ h.ne, hx, ← Block.set_of_byte hw hk h hx]

theorem map_data_zipWith_set {vals : List Bool} {xs : List Cell} (h : vals.length = xs.length) :
    (List.zipWith Cell.set vals xs).map Cell.data = vals := by
  induction vals generalizing xs with
  | nil => rfl
  | cons v vals ih =>
    cases xs with
    | nil => cases h
    | cons x xs => simp [ih (Nat.succ.inj h)]

/-- SETBYTE leaves the placed elements as the raw data (R89). -/
theorem Block.rawData_setByte {b : Block} (hw : b.wf = true) (hk : b.cfg.kind = .byteUnit) (vals : List Bool)
    (le : Bool) : (writtenBlock (.setByte vals le) b).rawData = place vals le := by
  have eight : (place vals le).length = b.cells.length := by
    rw [place_length, Block.cells_length_of_byte hw hk, Config.nbits]
  rw [writtenBlock, Block.recalcIfEnabled_rawData, Block.rawData, Block.mapCells_cells, map_data_zipWith_set eight]

/-- Settles O50: every cell is replaced by the trusted write of its element, and the recompute follows. -/
theorem setByteWritesAllCells : Obligations.SetByteWritesAllCells := by
  intro s vals le hw hk h
  refine ⟨_, exec_of_ret (outcome_setByte hk h le), rfl, rfl, rfl, Block.recalcIfEnabled_cfg _, fun k below => ?_, ?_⟩
  · exact ⟨_, Block.cell?_setByte hw hk vals le below, placeAt_eq_true_iff vals le k⟩
  · have data := Block.rawData_setByte hw hk vals le
    rw [writtenBlock, Block.recalcIfEnabled_rawData] at data
    rw [State.succeed_block, writtenBlock, Block.cell?_bpSelector, Block.bp_recalc_mapCells hw, Block.genBP_popRaw,
      data, count_place h]

/-- Settles O52: RECALC replaces the byte-parity cell alone. -/
theorem recalcSetsByteParity : Obligations.RecalcSetsByteParity := by
  intro s hw hp
  obtain ⟨x, hx⟩ := Option.isSome_iff_exists.mp ((Block.bp_isSome_of_wf hw).trans hp)
  obtain ⟨t, run, resp, mark, host, cfg, written, others⟩ := exec_modifyCell_frame (outcome_recalc hp) hx
  refine ⟨t, run, resp, mark, host, cfg, others, ?_⟩
  rw [written, Cell.set, Block.bp_shadow_of_wf hw hx, ← Block.genBP_popRaw]
  rfl

end Sys2Proof.Machine
end

section
/-! PROOFS of the family spec/41_byte_unit.md: the reading commands, and what they answer after the writing commands,
after runs and after direct cell access (R81, R82, R84, R85, R87, R89, R92, R93). -/

namespace Sys2Proof.Machine

/-! ## Reading: GETBIT, CHKBYTE, GETBYTE (R81, R82, R84, R85, R87) -/

/-- A checked read of a cell that differs from its shadow raises (R66). -/
theorem Cell.get_differing {x : Cell} (h : x.synced = false) : x.get false = .error .parityMismatch := by
  rcases Cell.get_cases false x with ⟨agrees, -⟩ | ⟨-, raised⟩
  · simp [h] at agrees
  · exact raised

/-- GETBIT in range is one checked read (R87). -/
theorem outcome_getBit {b : Block} (hk : b.cfg.kind = .byteUnit) {k : Nat} (h : k < 8) {x : Cell}
    (hx : b.cell? k = some x) (ovr : Bool) : outcome (.getBit k ovr) b = b.returnBit (x.get ovr) := by
  simp only [outcome, cmdGetBit, Block.requireByte_byte hk, requireIndex_in (indexInRange_natCast h),
    Int.toNat_natCast, hx]

/-- Settles O48: the checked read of the cell answers its data or raises. -/
theorem getBitCheckedRead : Obligations.GetBitCheckedRead := by
  intro s k ovr x hk h hx
  have read := outcome_getBit hk h hx ovr
  refine ⟨fun readable => ?_, fun plain differs => ?_⟩
  · have agrees : (ovr || x.synced) = true := by rwa [Bool.or_eq_true, Cell.synced_iff]
    rw [Cell.get_ok agrees] at read
    rw [exec_of_ret read, ← bitRdata_eq_ofNat]
    rfl
  · subst plain
    rw [Cell.get_differing (x.synced_eq_false_iff.mpr differs)] at read
    exact exec_of_raise read

/-- CHKBYTE with `byteParity` ends as the byte check does (R82). -/
theorem outcome_chkByte {b : Block} (hp : b.cfg.byteParity = true) :
    outcome .chkByte b = b.returnBit b.byteCheck := by
  rw [outcome, cmdChkByte, Block.requireByte_byte (Cfg.kind_of_byteParity hp), Block.requireByteParity_on hp]

/-- Among agreeing cells, the byte check answers the byte tier (R81). -/
theorem Block.byteCheck_of_synced {b : Block} (h : b.cells.all Cell.synced = true) :
    b.byteCheck = .ok (b.bpData == some (genBP b.popRaw)) := by
  rcases b.byteCheck_cases with ⟨-, check⟩ | ⟨differs, -⟩
  · exact check
  · simp [h] at differs

/-- A cell that differs from its shadow makes the byte check raise (R81). -/
theorem Block.byteCheck_of_differing {b : Block} (h : b.cells.all Cell.synced = false) :
    b.byteCheck = .error .parityMismatch := by
  rcases b.byteCheck_cases with ⟨synced, -⟩ | ⟨-, check⟩
  · simp [h] at synced
  · exact check

/-- The byte tier of a check: `BP` is the parity value of the data. -/
theorem Block.byteTier_iff (b : Block) :
    b.bpData = some (genBP b.popRaw) ↔ b.dataAt 8 = some (decide (b.rawData.count true % 2 = 0)) := by
  rw [Block.genBP_popRaw, Block.dataAt_eq, if_pos rfl]

/-- Settles O51: the byte check answers the byte tier when the data cells agree, and raises otherwise. -/
theorem chkByteChecksBothTiers : Obligations.ChkByteChecksBothTiers := by
  intro s hw hp
  have differing_iff := Block.exists_differing_cell_iff hw (Cfg.kind_of_byteParity hp)
  have ends := outcome_chkByte hp
  refine ⟨fun agree => ?_, fun differ => ?_⟩
  · have synced : s.block.cells.all Cell.synced = true := by
      by_contra differs
      obtain ⟨k, x, below, hx, hs⟩ := differing_iff.mp (Bool.not_eq_true _ ▸ differs)
      exact absurd (agree k x _ below hx hs) (Bool.not_ne_self x.data)
    rw [Block.byteCheck_of_synced synced] at ends
    rw [exec_of_ret ends]
    simp only [State.succeed, okResponse, Result.rdata, bitRdata, beq_iff_eq, Block.byteTier_iff, Status.code]
  · obtain ⟨k, x, sh, below, hx, hs, hne⟩ := differ
    have differs := differing_iff.mpr ⟨k, x, below, hx, by rw [hs, Bool.eq_not.mpr hne]⟩
    rw [Block.byteCheck_of_differing differs] at ends
    exact exec_of_raise ends

/-- Among agreeing cells, the byte guard of a plain GETBYTE answers the byte tier. -/
theorem Block.byteGuard_of_synced {b : Block} (h : b.cells.all Cell.synced = true) :
    b.byteGuard false = .ok (!b.cfg.byteParity || b.bpData == some (genBP b.popRaw)) := by
  cases hp : b.cfg.byteParity <;> simp [Block.byteGuard, hp, Block.byteCheck_of_synced h]

/-- A differing cell makes the byte guard raise, or leaves nothing to it, without `byteParity`. -/
theorem Block.byteGuard_of_differing {b : Block} (h : b.cells.all Cell.synced = false) :
    b.byteGuard false = .error .parityMismatch ∨ b.byteGuard false = .ok true := by
  cases hp : b.cfg.byteParity <;> simp [Block.byteGuard, hp, Block.byteCheck_of_differing h]

section
variable {b : Block} (hw : b.wf = true) (hk : b.cfg.kind = .byteUnit)
include hw hk

/-- GETBYTE without override answers the data of a consistent block and raises on any other (R85). -/
theorem outcome_getByte_plain :
    outcome (.getByte false) b = if b.consistent then .ret (.byte b.rawData) b else .raise .parityMismatch := by
  rw [outcome, cmdGetByte, Block.requireByte_byte hk, Block.returnByte, Block.consistent, Block.bp_synced_of_wf hw]
  rcases readCells_cases false b.cells with ⟨synced, reads⟩ | ⟨differs, reads⟩
  · rw [Bool.false_or] at synced
    rw [Block.byteGuard_of_synced synced, synced, reads, genBP, Bool.true_and, Bool.true_and]
    cases !b.cfg.byteParity || b.bpData == some (isEven b.popRaw) <;> rfl
  · rw [Bool.false_or] at differs
    rw [differs, reads]
    rcases Block.byteGuard_of_differing differs with guard | guard <;> rw [guard] <;> rfl

/-- GETBYTE overridden, or on a consistent block, answers the data. -/
theorem outcome_getByte_ok {ovr : Bool} (h : (ovr || b.consistent) = true) :
    outcome (.getByte ovr) b = .ret (.byte b.rawData) b := by
  cases ovr with
  | true => exact (cmdGetByte_override b).trans (Block.requireByte_byte hk _)
  | false => rw [outcome_getByte_plain hw hk, if_pos (by simpa using h)]

/-- Bit `k` of the packed raw data is `D[k]` (R37). -/
theorem Block.dataAt_eq_packBits {k : Nat} (h : k < 8) : b.dataAt k = some ((packBits b.rawData).getLsbD k) := by
  have within : k < b.rawData.length := by rwa [Block.rawData_length_of_byte hw hk]
  rw [Block.dataAt_eq, if_neg h.ne, getLsbD_packBits h, List.getD_eq_getElem _ _ within,
    List.getElem?_eq_getElem within]

/-- A block is inconsistent when a data cell differs from its shadow or, with `byteParity`, the byte tier disagrees. -/
theorem Block.consistent_eq_false_iff :
    b.consistent = false ↔ (∃ k x, k < 8 ∧ b.cell? k = some x ∧ x.shadow = some (!x.data)) ∨
      (b.cfg.byteParity = true ∧ b.bpData ≠ some (genBP b.popRaw)) := by
  rw [← Block.exists_differing_cell_iff hw hk, ← Bool.not_eq_true, Block.consistent_iff hw, not_and_or,
    Bool.not_eq_true, Classical.not_imp]

end

/-- Settles O47: the mismatch of the closed form is inconsistency, seen by a read that is not overridden. -/
theorem getByteClosedForm : Obligations.GetByteClosedForm := by
  intro s ovr hw hk mismatch
  have seen : mismatch ↔ ovr = false ∧ s.block.consistent = false := by
    refine and_congr_right fun _ => ?_
    rw [Block.consistent_eq_false_iff hw hk]
    refine or_congr ⟨?_, ?_⟩ (and_congr_right fun _ => not_congr (Block.byteTier_iff _).symm)
    · rintro ⟨shadowed, k, x, below, hx, hne⟩
      have has : x.hasShadow = true := (Block.hasShadow_of_byte hw hk below hx).trans shadowed
      obtain ⟨sh, hs⟩ := Option.isSome_iff_exists.mp has
      exact ⟨k, x, below, hx, by rw [hs, Bool.eq_not.mpr fun same => hne (hs.trans (congrArg some same))]⟩
    · rintro ⟨k, x, below, hx, hs⟩
      refine ⟨?_, k, x, below, hx, by simp [hs]⟩
      rw [← Block.hasShadow_of_byte hw hk below hx, Cell.hasShadow, hs, Option.isSome_some]
  refine ⟨fun h => ?_, fun h => ?_⟩
  · obtain ⟨rfl, broken⟩ := seen.mp h
    exact exec_of_raise (by rw [outcome_getByte_plain hw hk, broken]; rfl)
  · have readable : (ovr || s.block.consistent) = true := by
      rw [seen] at h
      simpa [imp_iff_not_or] using h
    exact ⟨_, exec_of_ret (outcome_getByte_ok hw hk readable), fun k below => Block.dataAt_eq_packBits hw hk below⟩

/-! ## SETBYTE, GETBYTE and SETBIT together (R84, R88, R89) -/

/-- Settles O54: SETBYTE leaves a consistent block, whose data are the placed elements. -/
theorem setByteGetByteRoundTrip : Obligations.SetByteGetByteRoundTrip := by
  intro s vals le ovr hw hk h
  have write := outcome_setByte hk h le
  have hw' := outcome_ret_wf write hw
  have hk' : (writtenBlock (.setByte vals le) s.block).cfg.kind = .byteUnit := by rwa [outcome_ret_cfg write]
  have consistent : (writtenBlock (.setByte vals le) s.block).consistent = true :=
    Block.consistent_recalc_mapCells hw (all_synced_zipWith_set _ _)
  have read := outcome_getByte_ok (ovr := ovr) hw' hk' (by rw [consistent, Bool.or_true])
  refine ⟨_, _, _, exec_of_ret write, exec_of_ret read, rfl, fun k below => ?_⟩
  rw [Result.rdata, getLsbD_packBits below, Block.rawData_setByte hw hk, List.getD_eq_getElem?_getD,
    getElem?_place below]
  exact placeAt_eq_true_iff vals le k

/-- Trusted writes of the cells `ks`, one after another, cell `k` with `f k`. -/
def setCells (f : Nat → Bool) (ks : List Nat) (xs : List Cell) : List Cell :=
  ks.foldl (fun xs k => xs.modify k (Cell.set (f k))) xs

/-- Writes one after another leave every named cell written, in whatever order and however often. -/
theorem getElem?_setCells (f : Nat → Bool) (ks : List Nat) (xs : List Cell) (j : Nat) :
    (setCells f ks xs)[j]? = if j ∈ ks then xs[j]?.map (Cell.set (f j)) else xs[j]? := by
  induction ks generalizing xs with
  | nil => simp [setCells]
  | cons k ks ih =>
    rw [setCells, List.foldl_cons, ← setCells, ih]
    by_cases same : j = k
    · subst same
      simp
    · simp [same, List.getElem?_modify_ne _ _ (Ne.symm same)]

/-- All eight cells written one after another are all eight cells written at once. -/
theorem setCells_range {xs : List Cell} (h : xs.length = 8) (vals : List Bool) (le : Bool) :
    setCells (placeAt vals le) (List.range 8) xs = List.zipWith Cell.set (place vals le) xs := by
  refine List.ext_getElem? fun k => ?_
  rw [getElem?_setCells, List.getElem?_zipWith]
  by_cases below : k < 8
  · rw [if_pos (List.mem_range.mpr below), getElem?_place below]
    cases xs[k]? <;> rfl
  · rw [List.getElem?_eq_none (l := xs) (by omega)]
    simp

/-- The recompute after a later change hides the one before it. -/
theorem Block.recalcIfEnabled_mapCells_recalcIfEnabled (g : List Cell → List Cell) (b : Block) :
    (b.recalcIfEnabled.mapCells g).recalcIfEnabled = (b.mapCells g).recalcIfEnabled := by
  cases h : b.cfg.byteParity with
  | false => simp [Block.recalcIfEnabled, h]
  | true =>
    simp only [Block.recalcIfEnabled, h, Block.mapCells_cfg, Block.byteRecalc_cfg, if_true]
    simp [Block.byteRecalc, Block.modifyCell, Block.mapCells, Block.popRaw, Block.rawData]

/-- A SETBIT in range goes through in the abstract model too. -/
theorem abstractExec_setBit {s : State} (hm : s.mark = none) (hk : s.block.cfg.kind = .byteUnit) {k : Nat} (h : k < 8)
    (v : Bool) : abstractExec (.setBit k v) s = .next (s.succeed .none (writtenBlock (.setBit k v) s.block)) := by
  have ends := outcome_setBit hk h v
  rcases abstractExec_unmarked hm (.setBit k v) with ⟨r, refused, -⟩ | ⟨-, run⟩
  · rw [ends] at refused
    cases refused
  · rw [run, ends, State.complete_ret]

theorem abstractRun_cons_next {instr : Instr} {s t : State} (h : abstractExec instr s = .next t) (rest : List Instr) :
    abstractRun (instr :: rest) s = abstractRun rest t := by
  rw [abstractRun, h]

/-- SETBITs one after another, on a state that a recompute has left, leave what their writes and one recompute leave. -/
theorem abstractRun_setBits (f : Nat → Bool) {ks : List Nat} {s : State} {b : Block} (hm : s.mark = none)
    (hk : b.cfg.kind = .byteUnit) (h : ∀ k ∈ ks, k < 8) :
    abstractRun (ks.map fun (k : Nat) => Instr.setBit k (f k)) (s.succeed .none b.recalcIfEnabled) =
      .next (s.succeed .none (b.mapCells (setCells f ks)).recalcIfEnabled) := by
  induction ks generalizing b with
  | nil => rfl
  | cons k ks ih =>
    obtain ⟨below, others⟩ := List.forall_mem_cons.mp h
    have kind : b.recalcIfEnabled.cfg.kind = .byteUnit := by rwa [Block.recalcIfEnabled_cfg]
    rw [List.map_cons, abstractRun_cons_next
      (abstractExec_setBit (s := s.succeed .none b.recalcIfEnabled) hm kind below (f k)),
      State.succeed_block, writtenBlock, Block.recalcIfEnabled_mapCells_recalcIfEnabled]
    exact ih (b := b.mapCells (·.modify k (Cell.set (f k)))) hk others

/-- Settles O55: the first SETBIT leaves a recomputed block, the others follow as `abstractRun_setBits` says, and the
eight writes are SETBYTE's. -/
theorem setByteIsEightSetBits : Obligations.SetByteIsEightSetBits := by
  intro s vals le hw hm hk h
  have eight := Block.cells_length_of_byte hw hk
  refine ⟨_, exec_of_ret (outcome_setByte hk h le), ?_⟩
  have same : writtenBlock (.setByte vals le) s.block =
      (s.block.mapCells (setCells (placeAt vals le) (List.range 8))).recalcIfEnabled := by
    rw [writtenBlock, Block.mapCells, Block.mapCells, setCells_range eight]
  rw [same, List.range_succ_eq_map, List.map_cons, abstractRun_cons_next (abstractExec_setBit hm hk (by decide) _)]
  exact abstractRun_setBits (placeAt vals le) (ks := (List.range 7).map Nat.succ)
    (b := s.block.mapCells (·.modify 0 (Cell.set (placeAt vals le 0)))) hm hk
    (by simp only [List.forall_mem_map, List.mem_range]; omega)

/-! ## Runs of commands (R92, R93) -/

/-- What a command does in the abstract model it does at the word interface. -/
theorem exec_of_abstractExec {instr : Instr} {s t : State} (h : abstractExec instr s = .next t) :
    exec instr s = .next t := by
  cases hm : s.mark with
  | some r => simp [abstractExec, State.unlessMarked, hm] at h
  | none =>
    rcases abstractExec_unmarked hm instr with ⟨r, -, refused⟩ | ⟨-, run⟩
    · rw [refused] at h
      cases h
    · rw [exec_eq_complete, ← run, h]

/-- An invariant of every command of a run is one of the run. -/
theorem abstractRun_induction {P : State → Prop} {cmds : List Instr}
    (step : ∀ instr ∈ cmds, ∀ s t, P s → exec instr s = .next t → P t) {s t : State} (hs : P s)
    (h : abstractRun cmds s = .next t) : P t := by
  induction cmds generalizing s with
  | nil =>
    cases h
    exact hs
  | cons instr cmds ih =>
    obtain ⟨first, others⟩ := List.forall_mem_cons.mp step
    rw [abstractRun] at h
    split at h
    next u hu => exact ih others (first s u hs (exec_of_abstractExec hu)) h
    all_goals cases h

/-- Settles O57: a reset leaves a sound block, every Byte command keeps it sound, and GETBYTE answers on it. -/
theorem noFalseAlarm : Obligations.NoFalseAlarm := by
  intro inp cmds t hk hi run
  have start : (State.afterReset inp []).block.Sound :=
    ⟨Block.wf_construct inp.latch, hk, Block.consistent_construct inp.latch⟩
  have sound : t.block.Sound := abstractRun_induction (P := fun s => s.block.Sound)
    (fun instr mem s u hs h => byteCommandsKeepConsistency instr s u hs (hi instr mem) h) start run
  obtain ⟨hw, kind, consistent⟩ := sound
  exact ⟨_, _, exec_of_ret (outcome_getByte_ok hw kind consistent), rfl, rfl⟩

/-- Two lists of one length differ in an odd number of places exactly when their counts of ones do. -/
theorem countP_differing_mod_two {xs ys : List Bool} (h : xs.length = ys.length) :
    (List.range xs.length).countP (fun c => xs[c]? != ys[c]?) % 2 = (popcount xs + popcount ys) % 2 := by
  induction xs generalizing ys with
  | nil =>
    cases ys with
    | nil => rfl
    | cons y ys => cases h
  | cons x xs ih =>
    cases ys with
    | nil => cases h
    | cons y ys =>
      have rest := ih (Nat.succ.inj h)
      rw [List.length_cons, List.range_succ_eq_map, List.countP_cons, List.countP_map]
      simp only [Function.comp_def, Nat.succ_eq_add_one, List.getElem?_cons_succ, List.getElem?_cons_zero, popcount]
      cases x <;> cases y <;> simp <;> omega

/-- How many of `D[0..7]` and `BP` changed is odd exactly when the two counts of ones among them differ in parity
(R93). -/
theorem changedBits_mod_two {b b' : Block} {v v' : Bool} (h : b.rawData.length = 8) (h' : b'.rawData.length = 8)
    (hv : b.bpData = some v) (hv' : b'.bpData = some v') :
    changedBits b b' % 2 = (popcount (v :: b.rawData) + popcount (v' :: b'.rawData)) % 2 := by
  have data := countP_differing_mod_two (h.trans h'.symm)
  have upTo : (List.range 8).countP (fun c => b.dataAt c != b'.dataAt c) =
      (List.range 8).countP (fun c => b.rawData[c]? != b'.rawData[c]?) := by
    refine List.countP_congr fun c hc => ?_
    have ne : c ≠ 8 := (List.mem_range.mp hc).ne
    rw [Block.dataAt_eq, Block.dataAt_eq, if_neg ne, if_neg ne]
  rw [changedBits, List.range_succ, List.countP_append, upTo, List.countP_singleton, Block.dataAt_eq b 8,
    Block.dataAt_eq b' 8, if_pos rfl, if_pos rfl, hv, hv', popcount, popcount]
  rw [h] at data
  cases v <;> cases v' <;> simp <;> omega

/-- Seen from a block whose byte-parity cell agrees, and which so holds an odd number of ones, a block's byte-parity
cell disagrees exactly when an odd number of bits changed. -/
theorem bp_disagrees_iff_changedBits_odd {b b' : Block} {v' : Bool} (h : b.rawData.length = 8)
    (h' : b'.rawData.length = 8) (hv : b.bpData = some (genBP b.popRaw)) (hv' : b'.bpData = some v') :
    b'.bpData ≠ some (genBP b'.popRaw) ↔ changedBits b b' % 2 = 1 := by
  have odd := (odd_popcount_cons_iff (genBP b.popRaw) b.rawData).mpr rfl
  rw [changedBits_mod_two h h' hv hv', hv', Ne, Option.some_inj, Block.popRaw, ← odd_popcount_cons_iff]
  omega

/-- Settles O58: a plain GETBYTE raises on the blocks that are not consistent, and every command of the run kept the
block's form, so what is left to know is the byte tier. -/
theorem oddCorruptionDetected : Obligations.OddCorruptionDetected := by
  intro s t cmds sound _ _ run
  obtain ⟨hw, hk, hc⟩ := sound
  obtain ⟨hw', cfg⟩ : t.block.wf = true ∧ t.block.cfg = s.block.cfg :=
    abstractRun_induction (P := fun u => u.block.wf = true ∧ u.block.cfg = s.block.cfg)
      (fun _ _ _ _ ⟨form, kept⟩ h => (exec_keeps_form form h).imp_right (·.trans kept)) ⟨hw, rfl⟩ run
  have hk' : t.block.cfg.kind = .byteUnit := by rwa [cfg]
  have byteTier : t.block.cfg.byteParity = true →
      (t.block.bpData ≠ some (genBP t.block.popRaw) ↔ changedBits s.block t.block % 2 = 1) := by
    intro hp
    obtain ⟨-, agrees⟩ := (Block.consistent_iff hw).mp hc
    obtain ⟨x, hx⟩ := Option.isSome_iff_exists.mp ((Block.bp_isSome_of_wf hw').trans hp)
    exact bp_disagrees_iff_changedBits_odd (Block.rawData_length_of_byte hw hk) (Block.rawData_length_of_byte hw' hk')
      (agrees (cfg ▸ hp)) (congrArg (Option.map Cell.data) hx)
  refine ⟨?_, _, _, exec_of_ret (outcome_getByte_ok hw' hk' (ovr := true) rfl), rfl, fun k below =>
    Block.dataAt_eq_packBits hw' hk' below⟩
  have detected : t.block.consistent = false ↔ (s.block.cfg.byteParity = true ∧ changedBits s.block t.block % 2 = 1) ∨
      ∃ k x, k < 8 ∧ t.block.cell? k = some x ∧ x.shadow = some (!x.data) := by
    rw [Block.consistent_eq_false_iff hw' hk', or_comm, and_congr_right byteTier, cfg]
  rw [← detected]
  cases hc' : t.block.consistent with
  | true => exact ⟨_, exec_of_ret (outcome_getByte_ok hw' hk' hc'), by simp [okResponse, Status.code]⟩
  | false => exact ⟨_, exec_of_raise (by rw [outcome_getByte_plain hw' hk', hc']; rfl), iff_of_true rfl rfl⟩

end Sys2Proof.Machine
end

section
/-! PROOFS of the family spec/60_exceptions.md: the errors, the refusals and their mark, and the two levels at which a
refusal is seen (R94 to R102, R112, R113). -/

namespace Sys2Proof.Machine

/-! ## The status of a command's end (R60, R94) -/

theorem Status.code_injective : Function.Injective Status.code := by
  intro st st'
  cases st <;> cases st' <;> decide

/-- The status that reports how a command ends. -/
def CmdOut.status : CmdOut → Status
  | .ret _ _ => .ok
  | .raise e => e.status
  | .refuse _ => .refused

theorem CmdOut.response_status (o : CmdOut) : o.response.status = o.status.code := by
  cases o <;> rfl

theorem CmdOut.status_eq_parityMismatch {o : CmdOut} :
    o.status = .parityMismatch ↔ o = .raise .parityMismatch := by
  cases o with
  | raise e => cases e <;> simp [CmdOut.status, CmdError.status]
  | ret | refuse => simp [CmdOut.status]

theorem CmdOut.status_eq_indexOutOfRange {o : CmdOut} :
    o.status = .indexOutOfRange ↔ ∃ idx, o = .raise (.indexOutOfRange idx) := by
  cases o with
  | raise e => cases e <;> simp [CmdOut.status, CmdError.status]
  | ret | refuse => simp [CmdOut.status]

theorem CmdOut.status_eq_refused {o : CmdOut} : o.status = .refused ↔ ∃ r, o = .refuse r := by
  cases o with
  | raise e => cases e <;> simp [CmdOut.status, CmdError.status]
  | ret | refuse => simp [CmdOut.status]

/-- A command whose response carries a status code has ended with that status. -/
theorem outcome_status_of_exec {instr : Instr} {s t : State} {r : Response} {st : Status}
    (h : exec instr s = .next t) (hr : t.response = some r) (hst : r.status = st.code) :
    (outcome instr s.block).status = st := by
  rw [exec_eq_complete] at h
  cases h
  rw [State.complete_response] at hr
  cases hr
  rw [CmdOut.response_status] at hst
  exact Status.code_injective hst

/-! ## Which commands raise (R95, R96) -/

theorem Block.requireByte_eq_raise {b : Block} {o : CmdOut} {e : CmdError} :
    b.requireByte o = .raise e ↔ b.cfg.kind = .byteUnit ∧ o = .raise e := by
  cases h : b.cfg.kind <;> simp [Block.requireByte, h]

theorem Block.requireByteParity_eq_raise {b : Block} {o : CmdOut} {e : CmdError} :
    b.requireByteParity o = .raise e ↔ b.cfg.byteParity = true ∧ o = .raise e := by
  cases h : b.cfg.byteParity <;> simp [Block.requireByteParity, h]

theorem requireIndex_eq_raise {idx : Int} {o : CmdOut} {e : CmdError} :
    requireIndex idx o = .raise e ↔
      indexInRange idx = false ∧ e = .indexOutOfRange idx ∨ indexInRange idx = true ∧ o = .raise e := by
  cases h : indexInRange idx <;> simp [requireIndex, h, eq_comm]

theorem Block.returnBit_eq_raise {b : Block} {read : Except CmdError Bool} {e : CmdError} :
    b.returnBit read = .raise e ↔ read = .error e := by
  cases read <;> simp [Block.returnBit]

/-- A checked read that fails is no override read, and its error is ParityMismatch (R66, R67). -/
theorem Cell.get_error {ovr : Bool} {x : Cell} {e : CmdError} (h : x.get ovr = .error e) :
    ovr = false ∧ e = .parityMismatch := by
  rcases Cell.get_cases ovr x with ⟨-, read⟩ | ⟨plain, read⟩ <;> rw [read] at h <;> cases h
  exact ⟨(Bool.or_eq_false_iff.mp plain).1, rfl⟩

theorem Block.byteCheck_error {b : Block} {e : CmdError} (h : b.byteCheck = .error e) : e = .parityMismatch := by
  rcases b.byteCheck_cases with ⟨-, check⟩ | ⟨-, check⟩ <;> rw [check] at h <;> cases h
  rfl

theorem Block.byteGuard_error {b : Block} {ovr : Bool} {e : CmdError} (h : b.byteGuard ovr = .error e) :
    e = .parityMismatch := by
  unfold Block.byteGuard at h
  split at h
  · exact Block.byteCheck_error h
  · cases h

/-- GETBYTE that raises is no override read, and its error is ParityMismatch (R84). -/
theorem cmdGetByte_raise {b : Block} {ovr : Bool} {e : CmdError} (h : cmdGetByte ovr b = .raise e) :
    ovr = false ∧ e = .parityMismatch := by
  cases ovr with
  | true =>
    rw [cmdGetByte_override] at h
    cases (Block.requireByte_eq_raise.mp h).2
  | false =>
    refine ⟨rfl, ?_⟩
    obtain ⟨-, h⟩ := Block.requireByte_eq_raise.mp h
    split at h
    next failed =>
      cases h
      exact Block.byteGuard_error failed
    next =>
      cases h
      rfl
    next =>
      rcases readCells_cases false b.cells with ⟨-, read⟩ | ⟨-, read⟩ <;> simp only [Block.returnByte, read] at h <;>
        cases h
      rfl

/-- What an error says of the command and the block. In form, no data cell of a Byte unit is absent, so that the index
is out of range (`indexInRange_of_raise`). -/
def RaisedFor (instr : Instr) (b : Block) : CmdError → Prop
  | .parityMismatch =>
    (∃ c, instr = .bget c false) ∨ (∃ idx, instr = .getBit idx false) ∨ instr = .getByte false ∨ instr = .chkByte
  | .indexOutOfRange idx =>
    (∃ v, instr = .setBit idx v ∨ instr = .getBit idx v) ∧ b.cfg.kind = .byteUnit ∧
      (indexInRange idx = true → b.cell? idx.toNat = none)

/-- Why a command raises: the counterpart of `refusedFor_of_outcome`. -/
theorem raisedFor_of_outcome {instr : Instr} {b : Block} {e : CmdError} (h : outcome instr b = .raise e) :
    RaisedFor instr b e := by
  cases instr with
  | getByte ovr =>
    obtain ⟨rfl, rfl⟩ := cmdGetByte_raise h
    exact .inr (.inr (.inl rfl))
  | setBit idx v =>
    obtain ⟨hk, h⟩ := Block.requireByte_eq_raise.mp h
    rcases requireIndex_eq_raise.mp h with ⟨out, rfl⟩ | ⟨-, written⟩
    · exact ⟨⟨v, .inl rfl⟩, hk, by simp [out]⟩
    · cases written
  | getBit idx ovr =>
    obtain ⟨hk, h⟩ := Block.requireByte_eq_raise.mp h
    rcases requireIndex_eq_raise.mp h with ⟨out, rfl⟩ | ⟨-, read⟩
    · exact ⟨⟨ovr, .inr rfl⟩, hk, by simp [out]⟩
    · split at read
      next absent =>
        cases read
        exact ⟨⟨ovr, .inr rfl⟩, hk, fun _ => absent⟩
      next =>
        obtain ⟨rfl, rfl⟩ := Cell.get_error (Block.returnBit_eq_raise.mp read)
        exact .inr (.inl ⟨idx, rfl⟩)
  | setByte vals le =>
    simp only [outcome, cmdSetByte] at h
    split at h
    · cases h
    · cases (Block.requireByte_eq_raise.mp h).2
  | chkByte =>
    obtain ⟨-, h⟩ := Block.requireByte_eq_raise.mp h
    obtain ⟨-, h⟩ := Block.requireByteParity_eq_raise.mp h
    obtain rfl := Block.byteCheck_error (Block.returnBit_eq_raise.mp h)
    exact .inr (.inr (.inr rfl))
  | recalc =>
    obtain ⟨-, h⟩ := Block.requireByte_eq_raise.mp h
    cases (Block.requireByteParity_eq_raise.mp h).2
  | bget c ovr =>
    simp only [outcome, cmdBget] at h
    split at h
    · cases h
    · obtain ⟨rfl, rfl⟩ := Cell.get_error (Block.returnBit_eq_raise.mp h)
      exact .inl ⟨c, rfl⟩
  | bset c v =>
    simp only [outcome, cmdBset] at h
    split at h <;> cases h
  | bflip c honor =>
    simp only [outcome, cmdBflip] at h
    split at h <;> cases h
  | bchk c =>
    simp only [outcome, cmdBchk] at h
    split at h
    · cases h
    · split at h <;> cases h

/-- Settles O29: status 1 is ParityMismatch, and an error says which command it comes from. -/
theorem mismatchRaisers : Obligations.MismatchRaisers := by
  intro instr s t r h hr hst
  have raised := CmdOut.status_eq_parityMismatch.mp (outcome_status_of_exec (st := .parityMismatch) h hr hst)
  exact raisedFor_of_outcome raised

/-! ## The bit index (R34, R96) -/

theorem indexInRange_eq_true_iff {idx : Int} : indexInRange idx = true ↔ 0 ≤ idx ∧ idx < 8 :=
  (Bool.and_eq_true_iff ..).trans (and_congr decide_eq_true_iff decide_eq_true_iff)

theorem indexInRange_eq_false_iff {idx : Int} : indexInRange idx = false ↔ idx < 0 ∨ 7 < idx := by
  rw [← Bool.not_eq_true, indexInRange_eq_true_iff]
  omega

/-- In form, the two commands with a bit index raise IndexOutOfRange only for an index that is out of range. -/
theorem indexInRange_of_raise {instr : Instr} {b : Block} {idx : Int} (hw : b.wf = true)
    (h : outcome instr b = .raise (.indexOutOfRange idx)) : indexInRange idx = false := by
  obtain ⟨-, hk, absent⟩ : RaisedFor instr b (.indexOutOfRange idx) := raisedFor_of_outcome h
  by_contra inside
  rw [Bool.not_eq_false] at inside
  obtain ⟨low, high⟩ := indexInRange_eq_true_iff.mp inside
  obtain ⟨x, present⟩ := Block.cell?_of_lt hw hk (k := idx.toNat) (by omega)
  rw [absent inside] at present
  cases present

/-- On a Byte unit an index out of range is an error before anything is read or written (R34, R100). -/
theorem outcome_indexOutOfRange {instr : Instr} {b : Block} {idx : Int} {v : Bool}
    (hi : instr = .setBit idx v ∨ instr = .getBit idx v) (hk : b.cfg.kind = .byteUnit)
    (out : indexInRange idx = false) : outcome instr b = .raise (.indexOutOfRange idx) := by
  rcases hi with rfl | rfl <;> exact (Block.requireByte_byte hk _).trans (requireIndex_out out _)

/-- Settles O33: status 2 is IndexOutOfRange, which only the two commands with a bit index raise, and on a unit in form
for nothing but their index. -/
theorem indexOutOfRangeCauses : Obligations.IndexOutOfRangeCauses := by
  intro s hw
  refine ⟨fun idx v hk instr hi => ?_, fun instr t others h r hr hst => ?_, fun c v instr hi outside => ?_⟩
  · refine ⟨_, exec_eq_complete instr s, fun ends => ?_, fun out => ?_⟩
    · have answers : (s.complete (outcome instr s.block)).response = some { status := 2, rdata := 0 } := by rw [ends]
      obtain ⟨idx', raised⟩ := CmdOut.status_eq_indexOutOfRange.mp
        (outcome_status_of_exec (st := .indexOutOfRange) (exec_eq_complete instr s) answers rfl)
      obtain ⟨⟨v', hi'⟩, -, -⟩ : RaisedFor instr s.block (.indexOutOfRange idx') := raisedFor_of_outcome raised
      have same : idx' = idx := by rcases hi with rfl | rfl <;> simp_all
      exact indexInRange_eq_false_iff.mp (same ▸ indexInRange_of_raise hw raised)
    · rw [outcome_indexOutOfRange hi hk (indexInRange_eq_false_iff.mpr out)]
      rfl
  · obtain ⟨idx, raised⟩ := CmdOut.status_eq_indexOutOfRange.mp
      (outcome_status_of_exec (st := .indexOutOfRange) h hr hst)
    obtain ⟨⟨v, hi⟩, -, -⟩ : RaisedFor instr s.block (.indexOutOfRange idx) := raisedFor_of_outcome raised
    exact hi.elim (others idx v).1 (others idx v).2
  · exact outcome_badSelector ⟨v, hi⟩ (Block.selected_of_not_inSpace outside)

/-! ## The refusal mark (R99) -/

/-- The word interface answers status 3 exactly where a command is refused. -/
theorem State.complete_refused_iff (s : State) (o : CmdOut) :
    (s.complete o).response = some { status := 3, rdata := 0 } ↔ ∃ r, o = .refuse r := by
  rw [State.complete_response, Option.some_inj]
  refine ⟨fun h => CmdOut.status_eq_refused.mp (Status.code_injective ?_), ?_⟩
  · rw [← CmdOut.response_status, h]
    rfl
  · rintro ⟨r, rfl⟩
    rfl

/-- No end of a command takes the mark away or changes its reason. -/
theorem State.complete_keeps_mark {s : State} {r : Reason} (hm : s.mark = some r) (o : CmdOut) :
    (s.complete o).mark = some r := by
  cases o <;> simp [hm]

/-- In an unmarked state a refusal, and nothing else, sets the mark to its reason. -/
theorem State.complete_mark_eq_some {s : State} (hm : s.mark = none) {o : CmdOut} {r : Reason} :
    (s.complete o).mark = some r ↔ o = .refuse r := by
  cases o <;> simp [hm]

/-- Settles O34: the end of a command keeps a mark, and sets one exactly where it answers status 3. -/
theorem markIsSticky : Obligations.MarkIsSticky := by
  intro instr s t h
  rw [exec_eq_complete] at h
  cases h
  refine ⟨fun r hm => State.complete_keeps_mark hm _, fun hm => ?_⟩
  rw [State.complete_refused_iff, Option.isSome_iff_exists]
  exact exists_congr fun r => State.complete_mark_eq_some hm

/-- Settles O35: in an unmarked state both levels end as the command's outcome says, and differ on a refusal only. -/
theorem abstractRefusalIsStatusThree : Obligations.AbstractRefusalIsStatusThree := by
  intro instr s t hm h
  rw [exec_eq_complete] at h
  cases h
  rw [Ne, State.complete_refused_iff]
  rcases abstractExec_unmarked hm instr with ⟨r, refused, ends⟩ | ⟨admitted, ends⟩
  · exact ⟨iff_of_true ⟨r, refused⟩ ⟨r, ends⟩, fun admitted => absurd ⟨r, refused⟩ admitted⟩
  · exact ⟨iff_of_false (fun ⟨r, refused⟩ => admitted r refused) (by simp [ends]), fun _ => ends⟩

/-! ## Steps, and steps of the abstract model (R99, R102, R113) -/

/-- Settles O21: the idle step. -/
theorem stepIdleKeepsBlock : Obligations.StepIdleKeepsBlock :=
  fun _ h => step_idle h

/-- Settles O22: whatever the host sends, the step has a next state. -/
theorem stepAlwaysAnswers : Obligations.StepAlwaysAnswers := by
  intro s
  cases h : s.host with
  | nil => exact ⟨_, step_idle h⟩
  | cons e rest =>
    cases e with
    | reset inp => exact ⟨_, step_reset h⟩
    | command w => exact ⟨_, step_word h⟩

/-- Everything a step can do when the host sends commands only. -/
theorem step_commandsOnly {s : State} (h : commandsOnly s.host = true) :
    (s.host = [] ∧ step s = .next s.idle) ∨
      ∃ w rest, s.host = .command w :: rest ∧ commandsOnly rest = true ∧
        step s = .next ((s.taken rest).complete (wordOutcome w s.block)) := by
  cases hh : s.host with
  | nil => exact .inl ⟨rfl, step_idle hh⟩
  | cons e rest =>
    rw [hh] at h
    cases e with
    | reset inp => simp [commandsOnly] at h
    | command w => exact .inr ⟨w, rest, rfl, by simpa [commandsOnly] using h, step_word hh⟩

/-- A step does not make the host send a reset. -/
theorem commandsOnly_of_step {s t : State} (h : commandsOnly s.host = true) (hs : step s = .next t) :
    commandsOnly t.host = true := by
  rcases step_commandsOnly h with ⟨-, ends⟩ | ⟨w, rest, -, only, ends⟩ <;> rw [ends] at hs <;> cases hs
  · exact h
  · rwa [State.complete_host]

/-- Without a reset a step keeps the mark. -/
theorem step_keeps_mark {s t : State} {r : Reason} (h : commandsOnly s.host = true) (hm : s.mark = some r)
    (hs : step s = .next t) : t.mark = some r := by
  rcases step_commandsOnly h with ⟨-, ends⟩ | ⟨w, rest, -, -, ends⟩ <;> rw [ends] at hs <;> cases hs
  · exact hm
  · exact State.complete_keeps_mark (s := s.taken rest) hm _

/-- Everything a step of the abstract model can do in an unmarked state when the host sends a word: it is refused, or it
ends as at the word interface. -/
theorem abstractStep_word {s : State} (hm : s.mark = none) {w : Word} {rest : List HostEvent}
    (h : s.host = .command w :: rest) :
    (∃ r, wordOutcome w s.block = .refuse r ∧ abstractStep s = .refused (.bySpec r)) ∨
      (∀ r, wordOutcome w s.block ≠ .refuse r) ∧
        abstractStep s = .next ((s.taken rest).complete (wordOutcome w s.block)) := by
  unfold wordOutcome
  cases hd : decode w with
  | error r => exact .inl ⟨r, rfl, by simp [abstractStep, h, hd, State.unlessMarked_none hm]⟩
  | ok instr =>
    have runs : abstractStep s = abstractExec instr (s.taken rest) := by
      simp [abstractStep, h, hd, State.unlessMarked_none hm]
    rw [runs]
    exact abstractExec_unmarked (s := s.taken rest) hm instr

/-- One step of the simulation: where the word interface sets no mark the abstract model takes the same step, and where
it sets one the abstract model refuses for that reason. -/
theorem abstractStep_of_step {s t : State} (hm : s.mark = none) (h : commandsOnly s.host = true)
    (hs : step s = .next t) :
    (t.mark = none ∧ abstractStep s = .next t) ∨ ∃ r, t.mark = some r ∧ abstractStep s = .refused (.bySpec r) := by
  rcases step_commandsOnly h with ⟨empty, ends⟩ | ⟨w, rest, sent, -, ends⟩ <;> rw [ends] at hs <;> cases hs
  · exact .inl ⟨hm, by simp [abstractStep, empty, State.unlessMarked_none hm]⟩
  · rcases abstractStep_word hm sent with ⟨r, refused, abstractEnds⟩ | ⟨admitted, abstractEnds⟩
    · exact .inr ⟨r, (State.complete_mark_eq_some (s := s.taken rest) hm).mpr refused, abstractEnds⟩
    · refine .inl ⟨Option.eq_none_iff_forall_ne_some.mpr fun r marked => ?_, abstractEnds⟩
      exact admitted r ((State.complete_mark_eq_some (s := s.taken rest) hm).mp marked)

/-! ## Runs at both levels (R99) -/

/-- A run of the word interface goes on from the state its first step leaves. -/
theorem core_run_succ {k : Nat} {s t : State} (h : step s = .next t) :
    Sys2Proof.core.run (k + 1) s = Sys2Proof.core.run k t := by
  have first : Sys2Proof.core.step s = .next t := h
  simp only [Host.Core.run, first]

/-- A run of the abstract model goes on from the state its first step leaves. -/
theorem abstractCore_run_succ_next {k : Nat} {s t : State} (h : abstractStep s = .next t) :
    abstractCore.run (k + 1) s = abstractCore.run k t := by
  have first : abstractCore.step s = .next t := h
  simp only [Host.Core.run, first]

/-- A run of the abstract model ends at a refusal. -/
theorem abstractCore_run_succ_refused {k : Nat} {s : State} {r : Refusal} (h : abstractStep s = .refused r) :
    abstractCore.run (k + 1) s = .refused r := by
  have first : abstractCore.step s = .refused r := h
  simp only [Host.Core.run, first]

/-- Without a reset a run keeps the mark. -/
theorem core_run_keeps_mark {k : Nat} {s t : State} {r : Reason} (h : commandsOnly s.host = true)
    (hm : s.mark = some r) (run : Sys2Proof.core.run k s = .next t) : t.mark = some r := by
  induction k generalizing s with
  | zero =>
    cases run
    exact hm
  | succ k ih =>
    obtain ⟨u, hu⟩ := stepAlwaysAnswers s
    rw [core_run_succ hu] at run
    exact ih (commandsOnly_of_step h hu) (step_keeps_mark h hm hu) run

/-- Settles O36, by induction on the number of steps: the abstract model follows each step until the first one that sets
the mark, and that mark is kept to the end of the run. -/
theorem wordRunRefinesAbstractRun : Obligations.WordRunRefinesAbstractRun := by
  intro k
  induction k with
  | zero =>
    intro s t hm _ run
    cases run
    exact ⟨fun _ => rfl, fun r marked => by simp [hm] at marked⟩
  | succ k ih =>
    intro s t hm h run
    obtain ⟨u, hu⟩ := stepAlwaysAnswers s
    rw [core_run_succ hu] at run
    have only := commandsOnly_of_step h hu
    rcases abstractStep_of_step hm h hu with ⟨unmarked, same⟩ | ⟨r, marked, refused⟩
    · rw [abstractCore_run_succ_next same]
      exact ih u t unmarked only run
    · have kept := core_run_keeps_mark only marked run
      rw [abstractCore_run_succ_refused refused, kept]
      refine ⟨nofun, fun r' same => ?_⟩
      cases same
      rfl

/-! ## The order of the checks (R100) -/

/-- The length of SETBYTE's sequence is checked before the unit's kind (R89, R100). -/
theorem outcome_badLength {vals : List Bool} (h : 8 < vals.length) (le : Bool) (b : Block) :
    outcome (.setByte vals le) b = .refuse .badLength :=
  if_pos h

/-- Settles O32: each command's first check, and for the bit index the second one once the first has passed. -/
theorem firstFailedCheckReported : Obligations.FirstFailedCheckReported := by
  intro b
  refine ⟨fun vals le long => outcome_badLength long le b, fun c outside => ?_, fun idx v hk => ?_,
    fun idx v hk out => ?_⟩
  · exact outcome_badSelector ⟨false, .inr (.inr (.inr rfl))⟩ (Block.selected_of_not_inSpace outside)
  · exact ⟨Block.requireByte_bit hk _, Block.requireByte_bit hk _⟩
  · have outRange := indexInRange_eq_false_iff.mpr out
    exact ⟨outcome_indexOutOfRange (.inl rfl) hk outRange, outcome_indexOutOfRange (.inr rfl) hk outRange⟩

end Sys2Proof.Machine
end

section
/-! PROOFS of the family spec/70_reset_and_hazards.md: the level as an integer (R115), what a recompute hides and what it
does not (R122, R123), and the end of a run (R126). -/

namespace Sys2Proof.Machine

/-! ## The level as an integer (R115) -/

theorem levelOfInt_eq_some_iff {level : Int} {l : BitVec 2} :
    levelOfInt level = some l ↔ (0 ≤ level ∧ level ≤ 3) ∧ BitVec.ofInt 2 level = l := by
  simp [levelOfInt]

theorem levelOfInt_eq_none_iff {level : Int} : levelOfInt level = none ↔ level < 0 ∨ 3 < level := by
  simp only [levelOfInt, ite_eq_right_iff, reduceCtorEq, imp_false]
  omega

/-- Settles O14: a level in range is below 2^2, so two bits hold it. -/
theorem levelOutsideRangeRefused : Obligations.LevelOutsideRangeRefused := by
  refine fun level => ⟨levelOfInt_eq_none_iff, fun l h => ?_⟩
  obtain ⟨⟨low, high⟩, rfl⟩ := levelOfInt_eq_some_iff.mp h
  rw [BitVec.toNat_ofInt]
  omega

/-! ## What a recompute hides (R122) -/

/-- At level 1 there is a byte-parity cell and no data cell has a shadow (R15, R18). -/
theorem Cfg.enables_of_level_one {cfg : Cfg} (hk : cfg.kind = .byteUnit) (hl : cfg.parityLevel = 1) :
    cfg.byteParity = true ∧ cfg.shadowed = false := by
  refine ⟨(Cfg.byteParity_byte hk).mpr (by rw [hl]; rfl), ?_⟩
  rw [← Bool.not_eq_true, Cfg.shadowed_byte hk, hl]
  decide

/-- Data cells without shadows agree, whatever their data: no corruption shows in them. -/
theorem Block.cells_synced_of_not_shadowed {b : Block} (hw : b.wf = true) (hs : b.cfg.shadowed = false) :
    b.cells.all Cell.synced = true := by
  obtain ⟨-, shadows, -⟩ := b.wf_iff.mp hw
  refine List.all_eq_true.mpr fun x hx => x.synced_iff.mpr (.inl ?_)
  simpa [Cell.hasShadow, hs] using shadows x hx

/-- A recompute of a block whose data cells agree leaves a consistent block, whatever its byte-parity cell held. -/
theorem outcome_recompute_consistent {instr : Instr} {b : Block} (hw : b.wf = true) (hp : b.cfg.byteParity = true)
    (synced : b.cells.all Cell.synced = true)
    (hi : instr = .recalc ∨ ∃ (k : Nat) (v : Bool), k < 8 ∧ instr = .setBit k v) :
    ∃ b', outcome instr b = .ret .none b' ∧ b'.consistent = true := by
  rcases hi with rfl | ⟨k, v, below, rfl⟩
  · refine ⟨b.byteRecalc, outcome_recalc hp, ?_⟩
    rw [← Block.recalcIfEnabled_eq_byteRecalc (Block.bp_isSome_of_wf hw)]
    exact Block.consistent_recalc_mapCells (g := id) hw synced
  · exact ⟨_, outcome_setBit (Cfg.kind_of_byteParity hp) below v,
      Block.consistent_recalc_mapCells hw (all_synced_modify_set synced _ v)⟩

/-- CHKBYTE answers that the parity of a consistent block is correct (R81, R82). -/
theorem outcome_chkByte_of_consistent {b : Block} (hw : b.wf = true) (hp : b.cfg.byteParity = true)
    (hc : b.consistent = true) : outcome .chkByte b = .ret (.bit true) b := by
  obtain ⟨synced, byteTier⟩ := (Block.consistent_iff hw).mp hc
  rw [outcome_chkByte hp, Block.byteCheck_of_synced synced, byteTier hp, beq_self_eq_true, Block.returnBit]

/-- Settles O59: at level 1 the data cells have no shadow to differ from, so the recompute leaves a consistent block, on
which both checks pass. -/
theorem recomputeHidesCorruption : Obligations.RecomputeHidesCorruption := by
  intro s t instr hw hk hl hi h
  obtain ⟨hw', cfg⟩ := exec_keeps_form hw h
  obtain ⟨hp, shadowless⟩ := Cfg.enables_of_level_one hk hl
  obtain ⟨b', ends, consistent⟩ :=
    outcome_recompute_consistent hw hp (Block.cells_synced_of_not_shadowed hw shadowless) hi
  rw [exec_of_ret ends] at h
  cases h
  rw [← cfg] at hk hp
  exact ⟨_, _, _, exec_of_ret (outcome_getByte_ok hw' hk consistent), rfl,
    exec_of_ret (outcome_chkByte_of_consistent hw' hp consistent), rfl⟩

/-! ## What leaves a data cell's mismatch (R123) -/

/-- The command writes data cell `k` by a trusted write, or flips it raw. -/
def repairs (instr : Instr) (k : Nat) : Prop :=
  (∃ v, instr = .setBit k v) ∨ (∃ vals le, instr = .setByte vals le) ∨ (∃ v, instr = .bset k v) ∨
    instr = .bflip k false

/-- Everything any other command can do to data cell `k`: nothing, or a clean flip. -/
theorem cell?_of_outcome_ret {instr : Instr} {b b' : Block} {r : Result} (h : outcome instr b = .ret r b') {k : Nat}
    (hk : k < 8) (hi : ¬ repairs instr k) :
    b'.cell? k = b.cell? k ∨ b'.cell? k = (b.cell? k).map (Cell.flip true) := by
  cases instr with
  | getByte | getBit | chkByte | bget | bchk => exact .inl (by rw [eq_writtenBlock_of_outcome_ret h]; rfl)
  | setBit idx v =>
    obtain ⟨-, h⟩ := Block.requireByte_eq_ret.mp h
    obtain ⟨inRange, h⟩ := requireIndex_eq_ret.mp h
    cases h
    have other : k ≠ idx.toNat := by
      rintro rfl
      exact hi (.inl ⟨v, by rw [Int.toNat_of_nonneg (indexInRange_eq_true_iff.mp inRange).1]⟩)
    exact .inl (by rw [Block.cell?_recalcIfEnabled hk.ne, Block.cell?_modifyCell, if_neg other])
  | setByte vals le => exact absurd (.inr (.inl ⟨vals, le, rfl⟩)) hi
  | recalc =>
    obtain rfl := eq_writtenBlock_of_outcome_ret h
    exact .inl ((Block.cell?_modifyCell ..).trans (if_neg hk.ne))
  | bset c v =>
    obtain rfl := eq_writtenBlock_of_outcome_ret h
    have other : k ≠ c := by
      rintro rfl
      exact hi (.inr (.inr (.inl ⟨v, rfl⟩)))
    exact .inl ((Block.cell?_modifyCell ..).trans (if_neg other))
  | bflip c honor =>
    obtain rfl := eq_writtenBlock_of_outcome_ret h
    by_cases same : k = c
    · subst same
      cases honor with
      | false => exact absurd (.inr (.inr (.inr rfl))) hi
      | true => exact .inr ((Block.cell?_modifyCell ..).trans (if_pos rfl))
    · exact .inl ((Block.cell?_modifyCell ..).trans (if_neg same))

/-- Settles O44: a command that neither writes the cell nor flips it raw leaves it or flips it clean, and a clean flip
keeps its disagreement. -/
theorem bitTierMismatchPersists : Obligations.BitTierMismatchPersists := by
  intro instr s t k x _ hk hx differs h notSetBit notSetByte notBset notRaw
  have hi : ¬ repairs instr k := by
    rintro (⟨v, hv⟩ | ⟨vals, le, hv⟩ | ⟨v, hv⟩ | raw)
    exacts [notSetBit v hv, notSetByte vals le hv, notBset v hv, notRaw raw]
  rw [exec_eq_complete] at h
  cases h
  rcases s.complete_block_cases (outcome instr s.block) with same | ⟨r, ends⟩
  · exact ⟨x, by rw [same, hx], differs⟩
  · rcases cell?_of_outcome_ret ends hk hi with kept | flipped
    · exact ⟨x, by rw [kept, hx], differs⟩
    · exact ⟨x.flip true, by rw [flipped, hx]; rfl, by rw [Cell.synced_flip_clean, differs]⟩

/-! ## The end of a run (R126) -/

/-- The state a word sent in a run leaves when it is not refused. -/
def State.afterWord (s : State) (w : Word) : State := (s.taken []).complete (wordOutcome w s.block)

/-- The record of words sent from a state. -/
def recordWords (ws : List Word) (s : State) : RunRecord := recordCommands (ws.map sendWord) s

theorem runOfWords_eq_recordWords (inp : ResetInputs) (ws : List Word) :
    runOfWords inp ws = recordWords ws (State.afterReset inp []) := rfl

theorem observe_cons_afterWord (w : Word) (ws : List Word) (s : State) :
    observe (w :: ws) s =
      ((wordOutcome w s.block).response :: (observe ws (s.afterWord w)).1, (observe ws (s.afterWord w)).2) :=
  observe_cons w ws s

/-- Everything the first word of a run can do: it is refused and the run ends, or it answers and the run goes on,
unmarked, from the state it leaves. -/
theorem recordWords_cons_cases {s : State} (hm : s.mark = none) (w : Word) :
    (∃ r, wordOutcome w s.block = .refuse r ∧ ∀ ws, recordWords (w :: ws) s =
        { responses := [], final := s.block, refusal := some (.bySpec r) }) ∨
      (∀ r, wordOutcome w s.block ≠ .refuse r) ∧ (s.afterWord w).mark = none ∧
        ∀ ws, recordWords (w :: ws) s =
          (recordWords ws (s.afterWord w)).after (some (wordOutcome w s.block).response) := by
  rcases abstractStep_word (s := { s with host := [.command w] }) hm rfl with ⟨r, refused, ends⟩ | ⟨admitted, ends⟩
  · exact .inl ⟨r, refused, fun ws => recordCommands_cons_refused (command := sendWord w) ends _⟩
  · refine .inr ⟨admitted, Option.eq_none_iff_forall_ne_some.mpr fun r marked => ?_, fun ws => ?_⟩
    · exact admitted r ((State.complete_mark_eq_some (s := s.taken []) hm).mp marked)
    · rw [← State.complete_response (s.taken []) (wordOutcome w s.block)]
      exact recordCommands_cons_next (command := sendWord w) ends _

/-- Only a refusal answers status 3 (R60). -/
theorem CmdOut.response_status_ne_three {o : CmdOut} (h : ∀ r, o ≠ .refuse r) : o.response.status ≠ 3 := by
  rw [CmdOut.response_status]
  intro three
  obtain ⟨r, refused⟩ := CmdOut.status_eq_refused.mp (Status.code_injective (a₂ := .refused) three)
  exact h r refused

/-- A run without a refusal is the word interface's, and none of its responses says Refused. -/
theorem recordWords_of_unrefused {ws : List Word} {s : State} (hm : s.mark = none)
    (h : (recordWords ws s).refusal = none) :
    observe ws s = ((recordWords ws s).responses, (recordWords ws s).final) ∧
      ∀ r ∈ (recordWords ws s).responses, r.status ≠ 3 := by
  induction ws generalizing s with
  | nil => exact ⟨rfl, nofun⟩
  | cons w ws ih =>
    rcases recordWords_cons_cases hm w with ⟨r, -, record⟩ | ⟨admitted, unmarked, record⟩
    · rw [record] at h
      cases h
    · rw [record] at h ⊢
      obtain ⟨same, answered⟩ := ih unmarked h
      refine ⟨by rw [observe_cons_afterWord, same]; rfl, ?_⟩
      exact List.forall_mem_cons.mpr ⟨CmdOut.response_status_ne_three admitted, answered⟩

/-- A run that is refused is the run of the words before the first refused one, which the word interface answers with
status 3. -/
theorem recordWords_of_refused {ws : List Word} {s : State} {why : Refusal} (hm : s.mark = none)
    (h : (recordWords ws s).refusal = some why) :
    ∃ before w rest, ws = before ++ w :: rest ∧ (recordWords before s).refusal = none ∧
      (recordWords ws s).responses = (recordWords before s).responses ∧
      (recordWords ws s).final = (recordWords before s).final ∧
      (observe (before ++ [w]) s).1 = (recordWords before s).responses ++ [{ status := 3, rdata := 0 }] := by
  induction ws generalizing s with
  | nil => cases h
  | cons w ws ih =>
    rcases recordWords_cons_cases hm w with ⟨r, refused, record⟩ | ⟨-, unmarked, record⟩
    · rw [record]
      exact ⟨[], w, ws, rfl, rfl, rfl, rfl, by rw [List.nil_append, observe_cons_afterWord, refused]; rfl⟩
    · rw [record] at h ⊢
      obtain ⟨before, w', rest, rfl, unrefused, responses, final, observed⟩ := ih unmarked h
      refine ⟨w :: before, w', rest, rfl, ?_⟩
      rw [record, List.cons_append, observe_cons_afterWord, observed]
      exact ⟨unrefused, congrArg (List.cons _) responses, final, rfl⟩

/-- Settles O25: both halves hold of words sent from any unmarked state, such as the one a reset leaves. -/
theorem runEndsAtFirstRefusal : Obligations.RunEndsAtFirstRefusal := by
  intro inp ws
  simp only [runOfWords_eq_recordWords, observeRun]
  exact ⟨recordWords_of_unrefused rfl, fun _ => recordWords_of_refused rfl⟩

end Sys2Proof.Machine
end

section
/-! PROOFS of the state the model starts from: the reset state with no input supplied (R28 to R31, R50; log entries 2, 4
and 5). -/

namespace Sys2Proof.Machine

/-- The byte-parity cell as constructed reads `true` wherever there is one (R29). -/
@[simp] theorem Block.construct_bpData (cfg : Cfg) :
    (Block.construct cfg).bpData = if cfg.byteParity then some true else none := by
  cases h : cfg.byteParity <;> simp [Block.bpData, h]

/-- The model's reset state holds the block constructed for a Byte unit without inputs. -/
theorem State.reset_block : State.reset.block = Block.construct (ResetInputs.latch { cfgKind := .byteUnit }) := rfl

/-- Settles O16: the model's reset state is a reset state, so it has its form; its level is odd, so it has a byte-parity
cell. -/
theorem modelResetState : Obligations.ModelResetState := by
  obtain ⟨form, -⟩ := resetStateConsistent { cfgKind := .byteUnit } []
  have parity : (ResetInputs.latch { cfgKind := .byteUnit }).byteParity = true := (Cfg.byteParity_byte rfl).mpr rfl
  refine ⟨rfl, form, rfl, rfl, rfl, ?_, ?_⟩
  · rw [State.reset_block, Block.construct_rawData, Cfg.cellCount_byte rfl]
  · rw [State.reset_block, Block.construct_bpData, if_pos parity]

end Sys2Proof.Machine
end
